-- ==== Sys2Proof/Config.lean ====
section
/-!
DEFINITION. The build-time parameters of the block (00_scope.md R7, R8): `W` bits in a word, `N` words in a value,
`B = W * N`. The spec leaves both open and says "the model takes `W` and `N` as arguments"; they stand in State,
where no step changes them (log 1), so that every statement is about every build of the block.
-/

namespace Sys2Proof

/-- The parameters of one build (00_scope.md R7). -/
structure Params where
  /-- `W`, "the bit width of one word (digit)" -/
  w : Nat
  /-- `N`, "the number of words of every multi-word value" -/
  n : Nat
deriving DecidableEq, Repr

/-- `B = W * N`, "the total bit width" (00_scope.md R7). -/
def Params.b (p : Params) : Nat := p.w * p.n

/-- The bounds of 00_scope.md R7: `W >= 1`, `N >= 1`, `B <= 65536`. -/
abbrev Params.ok (p : Params) : Prop := 1 ≤ p.w ∧ 1 ≤ p.n ∧ p.b ≤ 65536

/-- The reference configuration `T8`: `W = 8, N = 4, B = 32` (00_scope.md R8). -/
def Params.t8 : Params := ⟨8, 4⟩

/-- The reference configuration `T64`: `W = 64, N = 4, B = 256` (00_scope.md R8). -/
def Params.t64 : Params := ⟨64, 4⟩

end Sys2Proof
end

