-- ==== Sys2Proof/Word.lean ====
section
/-!
DEFINITION. The fixed-width pieces of the bigi CORE block: a register number, an immediate, a command word, and
the bit field `v[hi:lo]` of the spec's notation (00_scope.md section 4).
The multi-word values have the build-time width `B`, so they are natural numbers below `2^B` (log 9), as the spec
itself reads them: "the value of operand register `i` read as one unsigned integer in `[0, 2^B)`".
-/

namespace Sys2Proof

/-- A register field: "unsigned register numbers 0 to 15" (30_encoding.md R43). -/
abbrev Reg := Fin 16

/-- `IMM16`, "an unsigned number in `[0, 65535]`, used as it stands" (30_encoding.md R43). -/
abbrev Imm := BitVec 16

/-- A command: "one 32-bit word, the value written to port `CMD`" (30_encoding.md R40). -/
abbrev Cmd := BitVec 32

end Sys2Proof
end

