-- ==== Sys2Proof/Syntax.lean ====
section
/-!
DEFINITION. The 33 commands of 30_encoding.md R44, one constructor per row of spec/opcode_table.json. The arguments
are the fields the row's command uses, in the order of the encoding (RD or RX, RA, RB, RC, IMM16).
-/

namespace Sys2Proof

/-- A command of the block (30_encoding.md R44). -/
inductive Instr where
  /-- `MOV rd, ra` (R60) -/
  | mov (rd ra : Reg)
  /-- `SETW rd` (R61) -/
  | setw (rd : Reg)
  /-- `SETDW rd` (R62) -/
  | setdw (rd : Reg)
  /-- `GETW ra` (R63) -/
  | getw (ra : Reg)
  /-- `GETDW ra` (R64) -/
  | getdw (ra : Reg)
  /-- `LDW rx, idx` (R65) -/
  | ldw (rx : Reg) (imm : Imm)
  /-- `STW ra, idx` (R66) -/
  | stw (ra : Reg) (imm : Imm)
  /-- `ISZERO ra` (R70) -/
  | iszero (ra : Reg)
  /-- `ISODD ra` (R71) -/
  | isodd (ra : Reg)
  /-- `ISEVEN ra` (R72) -/
  | iseven (ra : Reg)
  /-- `ORDER ra` (R73) -/
  | order (ra : Reg)
  /-- `BITLEN ra` (R74) -/
  | bitlen (ra : Reg)
  /-- `GETBIT ra, idx` (R75) -/
  | getbit (ra : Reg) (imm : Imm)
  /-- `CMP ra, rb` (R76) -/
  | cmp (ra rb : Reg)
  /-- `ADD rd, ra, rb` (R80) -/
  | add (rd ra rb : Reg)
  /-- `SUB rd, ra, rb` (R81) -/
  | sub (rd ra rb : Reg)
  /-- `MUL rd, ra, rb` (R85) -/
  | mul (rd ra rb : Reg)
  /-- `MULX rd, rc, ra, rb` (R86): low half to `rd`, high half to `rc` -/
  | mulx (rd ra rb rc : Reg)
  /-- `DIV rd, ra, rb` (R90): `ra` is the receiver -/
  | div (rd ra rb : Reg)
  /-- `DIVX rd, ra, rc, rb` (R91): `ra` is the low half and the receiver, `rc` the high half -/
  | divx (rd ra rb rc : Reg)
  /-- `SHL rx, ra, cnt` (R100) -/
  | shl (rx ra : Reg) (imm : Imm)
  /-- `SHR rx, ra, cnt` (R101) -/
  | shr (rx ra : Reg) (imm : Imm)
  /-- `SETMOD ra` (R105) -/
  | setmod (ra : Reg)
  /-- `MODNORM ra` (R106) -/
  | modnorm (ra : Reg)
  /-- `MODADD rd, ra, rb` (R107) -/
  | modadd (rd ra rb : Reg)
  /-- `MODSUB rd, ra, rb` (R108) -/
  | modsub (rd ra rb : Reg)
  /-- `MODMUL rd, ra, rb` (R109) -/
  | modmul (rd ra rb : Reg)
  /-- `MODPOW rd, ra, rb` (R110): base `ra`, exponent `rb` -/
  | modpow (rd ra rb : Reg)
  /-- `MSETUP ra, rx, k` (R115): modulus `ra`, constant `rx` -/
  | msetup (rx ra : Reg) (imm : Imm)
  /-- `MTOREPR rd, ra` (R116) -/
  | mtorepr (rd ra : Reg)
  /-- `MFROMREPR rd, ra` (R117) -/
  | mfromrepr (rd ra : Reg)
  /-- `MMUL rd, ra, rb` (R118) -/
  | mmul (rd ra rb : Reg)
  /-- `MPOW rd, ra, rb` (R119): base image `ra`, exponent `rb` -/
  | mpow (rd ra rb : Reg)
deriving DecidableEq, Repr

/-- The mnemonic of a command, as 30_encoding.md R44 spells it. -/
def Instr.mnemonic : Instr → String
  | .mov .. => "MOV"
  | .setw .. => "SETW"
  | .setdw .. => "SETDW"
  | .getw .. => "GETW"
  | .getdw .. => "GETDW"
  | .ldw .. => "LDW"
  | .stw .. => "STW"
  | .iszero .. => "ISZERO"
  | .isodd .. => "ISODD"
  | .iseven .. => "ISEVEN"
  | .order .. => "ORDER"
  | .bitlen .. => "BITLEN"
  | .getbit .. => "GETBIT"
  | .cmp .. => "CMP"
  | .add .. => "ADD"
  | .sub .. => "SUB"
  | .mul .. => "MUL"
  | .mulx .. => "MULX"
  | .div .. => "DIV"
  | .divx .. => "DIVX"
  | .shl .. => "SHL"
  | .shr .. => "SHR"
  | .setmod .. => "SETMOD"
  | .modnorm .. => "MODNORM"
  | .modadd .. => "MODADD"
  | .modsub .. => "MODSUB"
  | .modmul .. => "MODMUL"
  | .modpow .. => "MODPOW"
  | .msetup .. => "MSETUP"
  | .mtorepr .. => "MTOREPR"
  | .mfromrepr .. => "MFROMREPR"
  | .mmul .. => "MMUL"
  | .mpow .. => "MPOW"

end Sys2Proof
end

