-- ==== Sys2Proof/WellFormed.lean ====
section
/-!
DEFINITION. The static checks of 30_encoding.md R45 on a decoded command: step 4, the word index of `LDW` and `STW`
(R65, R66), and step 5, the alias limits of R48. They depend on the command and on `N` alone. A command that fails
one is a legal decoding of its word and raises ILLEGAL when it is run.
-/

namespace Sys2Proof

/-- What a static check finds wrong (30_encoding.md R45 steps 4 and 5). -/
inductive StaticError where
  /-- `LDW` or `STW` with `imm >= N` (R65, R66) -/
  | wordIndexOutOfRange
  /-- `MULX` with `RD = RC`, `DIV` or `DIVX` with `RD = RA` (R48) -/
  | destinationsAlias
deriving DecidableEq, Repr

/-- The static check of each command in a build with `n` words; every command but five has nothing to check. -/
def Instr.staticCheck (n : Nat) : Instr → Option StaticError
  | .ldw _ imm => if n ≤ imm.toNat then some .wordIndexOutOfRange else none
  | .stw _ imm => if n ≤ imm.toNat then some .wordIndexOutOfRange else none
  | .mulx rd _ _ rc => if rd = rc then some .destinationsAlias else none
  | .div rd ra _ => if rd = ra then some .destinationsAlias else none
  | .divx rd ra _ _ => if rd = ra then some .destinationsAlias else none
  | .mov .. => none
  | .setw .. => none
  | .setdw .. => none
  | .getw .. => none
  | .getdw .. => none
  | .iszero .. => none
  | .isodd .. => none
  | .iseven .. => none
  | .order .. => none
  | .bitlen .. => none
  | .getbit .. => none
  | .cmp .. => none
  | .add .. => none
  | .sub .. => none
  | .mul .. => none
  | .shl .. => none
  | .shr .. => none
  | .setmod .. => none
  | .modnorm .. => none
  | .modadd .. => none
  | .modsub .. => none
  | .modmul .. => none
  | .modpow .. => none
  | .msetup .. => none
  | .mtorepr .. => none
  | .mfromrepr .. => none
  | .mmul .. => none
  | .mpow .. => none

/-- A command that passes its static check in a build with `n` words. -/
abbrev Instr.wellFormed (n : Nat) (i : Instr) : Prop := i.staticCheck n = none

end Sys2Proof
end

