-- ==== Sys2Proof/Decode.lean ====
section
/-!
DEFINITION. The decoder of 30_encoding.md R40 to R46 (steps 2 and 3 of R45: the opcode, then the unused fields),
total on the 2^32 words and rejecting by name, the encoder written from the same formats, and the opcode map of
R44 as a table of match and mask. Steps 4 and 5 of R45 are in WellFormed.lean.
-/

namespace Sys2Proof

/-- `v[hi:lo]`, "the unsigned number made of bits `hi` down to `lo`" (00_scope.md section 4). -/
def bits (v : Cmd) (hi lo : Nat) : Nat := v.toNat / 2 ^ lo % 2 ^ (hi + 1 - lo)

/-- `OP`, bits 31:24 (30_encoding.md R40). -/
def fieldOP (v : Cmd) : Nat := bits v 31 24
/-- `RD`, bits 23:20 of format R (30_encoding.md R41). -/
def fieldRD (v : Cmd) : Reg := Fin.ofNat 16 (bits v 23 20)
/-- `RX`, bits 23:20 of format I (30_encoding.md R42). -/
def fieldRX (v : Cmd) : Reg := Fin.ofNat 16 (bits v 23 20)
/-- `RA`, bits 19:16 of both formats (30_encoding.md R41, R42). -/
def fieldRA (v : Cmd) : Reg := Fin.ofNat 16 (bits v 19 16)
/-- `RB`, bits 15:12 of format R (30_encoding.md R41). -/
def fieldRB (v : Cmd) : Reg := Fin.ofNat 16 (bits v 15 12)
/-- `RC`, bits 11:8 of format R (30_encoding.md R41). -/
def fieldRC (v : Cmd) : Reg := Fin.ofNat 16 (bits v 11 8)
/-- `IMM16`, bits 15:0 of format I (30_encoding.md R42, R43). -/
def fieldIMM (v : Cmd) : Imm := BitVec.ofNat 16 (bits v 15 0)

/-- Why a word is no command (30_encoding.md R45 steps 2 and 3, R49). -/
inductive DecodeError where
  /-- `OP` is not one of the 33 opcodes (step 2) -/
  | unknownOpcode
  /-- an unused register field or `ZERO` is not 0 (step 3) -/
  | unusedFieldNotZero
deriving DecidableEq, Repr

/-- Step 3 of 30_encoding.md R45 for one row: `i` when the row's unused bits are 0. -/
def rowIf (unusedZero : Bool) (i : Instr) : Except DecodeError Instr :=
  if unusedZero then .ok i else .error .unusedFieldNotZero

/-- The bits `hi:lo` of a word are 0. -/
def zeroBits (v : Cmd) (hi lo : Nat) : Bool := bits v hi lo == 0

/-- The decoder (30_encoding.md R44 to R46). Each row names the unused bits of its format, `ZERO` included. -/
def decode (v : Cmd) : Except DecodeError Instr :=
  match fieldOP v with
  | 0x10 => rowIf (zeroBits v 15 0) (.mov (fieldRD v) (fieldRA v))
  | 0x11 => rowIf (zeroBits v 19 0) (.setw (fieldRD v))
  | 0x12 => rowIf (zeroBits v 19 0) (.setdw (fieldRD v))
  | 0x13 => rowIf (zeroBits v 23 20 && zeroBits v 15 0) (.getw (fieldRA v))
  | 0x14 => rowIf (zeroBits v 23 20 && zeroBits v 15 0) (.getdw (fieldRA v))
  | 0x15 => rowIf (zeroBits v 19 16) (.ldw (fieldRX v) (fieldIMM v))
  | 0x16 => rowIf (zeroBits v 23 20) (.stw (fieldRA v) (fieldIMM v))
  | 0x20 => rowIf (zeroBits v 23 20 && zeroBits v 15 0) (.iszero (fieldRA v))
  | 0x21 => rowIf (zeroBits v 23 20 && zeroBits v 15 0) (.isodd (fieldRA v))
  | 0x22 => rowIf (zeroBits v 23 20 && zeroBits v 15 0) (.iseven (fieldRA v))
  | 0x23 => rowIf (zeroBits v 23 20 && zeroBits v 15 0) (.order (fieldRA v))
  | 0x24 => rowIf (zeroBits v 23 20 && zeroBits v 15 0) (.bitlen (fieldRA v))
  | 0x25 => rowIf (zeroBits v 23 20) (.getbit (fieldRA v) (fieldIMM v))
  | 0x26 => rowIf (zeroBits v 23 20 && zeroBits v 11 0) (.cmp (fieldRA v) (fieldRB v))
  | 0x30 => rowIf (zeroBits v 11 0) (.add (fieldRD v) (fieldRA v) (fieldRB v))
  | 0x31 => rowIf (zeroBits v 11 0) (.sub (fieldRD v) (fieldRA v) (fieldRB v))
  | 0x40 => rowIf (zeroBits v 11 0) (.mul (fieldRD v) (fieldRA v) (fieldRB v))
  | 0x41 => rowIf (zeroBits v 7 0) (.mulx (fieldRD v) (fieldRA v) (fieldRB v) (fieldRC v))
  | 0x50 => rowIf (zeroBits v 11 0) (.div (fieldRD v) (fieldRA v) (fieldRB v))
  | 0x51 => rowIf (zeroBits v 7 0) (.divx (fieldRD v) (fieldRA v) (fieldRB v) (fieldRC v))
  | 0x60 => .ok (.shl (fieldRX v) (fieldRA v) (fieldIMM v))
  | 0x61 => .ok (.shr (fieldRX v) (fieldRA v) (fieldIMM v))
  | 0x70 => rowIf (zeroBits v 23 20 && zeroBits v 15 0) (.setmod (fieldRA v))
  | 0x71 => rowIf (zeroBits v 23 20 && zeroBits v 15 0) (.modnorm (fieldRA v))
  | 0x72 => rowIf (zeroBits v 11 0) (.modadd (fieldRD v) (fieldRA v) (fieldRB v))
  | 0x73 => rowIf (zeroBits v 11 0) (.modsub (fieldRD v) (fieldRA v) (fieldRB v))
  | 0x74 => rowIf (zeroBits v 11 0) (.modmul (fieldRD v) (fieldRA v) (fieldRB v))
  | 0x75 => rowIf (zeroBits v 11 0) (.modpow (fieldRD v) (fieldRA v) (fieldRB v))
  | 0x80 => .ok (.msetup (fieldRX v) (fieldRA v) (fieldIMM v))
  | 0x81 => rowIf (zeroBits v 15 0) (.mtorepr (fieldRD v) (fieldRA v))
  | 0x82 => rowIf (zeroBits v 15 0) (.mfromrepr (fieldRD v) (fieldRA v))
  | 0x83 => rowIf (zeroBits v 11 0) (.mmul (fieldRD v) (fieldRA v) (fieldRB v))
  | 0x84 => rowIf (zeroBits v 11 0) (.mpow (fieldRD v) (fieldRA v) (fieldRB v))
  | _ => .error .unknownOpcode

/-- A word of format R (30_encoding.md R41) with `ZERO = 0`. -/
def formatR (op : Nat) (rd ra rb rc : Reg) : Nat :=
  op * 2 ^ 24 + rd.val * 2 ^ 20 + ra.val * 2 ^ 16 + rb.val * 2 ^ 12 + rc.val * 2 ^ 8

/-- A word of format I (30_encoding.md R42). -/
def formatI (op : Nat) (rx ra : Reg) (imm : Imm) : Nat :=
  op * 2 ^ 24 + rx.val * 2 ^ 20 + ra.val * 2 ^ 16 + imm.toNat

/-- The number a command's word spells; a register field the command does not use is 0 (30_encoding.md R44). -/
def encodeNat : Instr → Nat
  | .mov rd ra => formatR 0x10 rd ra 0 0
  | .setw rd => formatR 0x11 rd 0 0 0
  | .setdw rd => formatR 0x12 rd 0 0 0
  | .getw ra => formatR 0x13 0 ra 0 0
  | .getdw ra => formatR 0x14 0 ra 0 0
  | .ldw rx imm => formatI 0x15 rx 0 imm
  | .stw ra imm => formatI 0x16 0 ra imm
  | .iszero ra => formatR 0x20 0 ra 0 0
  | .isodd ra => formatR 0x21 0 ra 0 0
  | .iseven ra => formatR 0x22 0 ra 0 0
  | .order ra => formatR 0x23 0 ra 0 0
  | .bitlen ra => formatR 0x24 0 ra 0 0
  | .getbit ra imm => formatI 0x25 0 ra imm
  | .cmp ra rb => formatR 0x26 0 ra rb 0
  | .add rd ra rb => formatR 0x30 rd ra rb 0
  | .sub rd ra rb => formatR 0x31 rd ra rb 0
  | .mul rd ra rb => formatR 0x40 rd ra rb 0
  | .mulx rd ra rb rc => formatR 0x41 rd ra rb rc
  | .div rd ra rb => formatR 0x50 rd ra rb 0
  | .divx rd ra rb rc => formatR 0x51 rd ra rb rc
  | .shl rx ra imm => formatI 0x60 rx ra imm
  | .shr rx ra imm => formatI 0x61 rx ra imm
  | .setmod ra => formatR 0x70 0 ra 0 0
  | .modnorm ra => formatR 0x71 0 ra 0 0
  | .modadd rd ra rb => formatR 0x72 rd ra rb 0
  | .modsub rd ra rb => formatR 0x73 rd ra rb 0
  | .modmul rd ra rb => formatR 0x74 rd ra rb 0
  | .modpow rd ra rb => formatR 0x75 rd ra rb 0
  | .msetup rx ra imm => formatI 0x80 rx ra imm
  | .mtorepr rd ra => formatR 0x81 rd ra 0 0
  | .mfromrepr rd ra => formatR 0x82 rd ra 0 0
  | .mmul rd ra rb => formatR 0x83 rd ra rb 0
  | .mpow rd ra rb => formatR 0x84 rd ra rb 0

/-- The command word of an instruction. A word has at most one command and a command one word, so this is also the
word that was written to `CMD` (log 12). -/
def encode (i : Instr) : Cmd := BitVec.ofNat 32 (encodeNat i)

/-- One row of the opcode map (30_encoding.md R44). -/
structure OpcodeRow where
  mnemonic : String
  pattern : Cmd
  mask : Cmd
deriving DecidableEq, Repr

/-- "a word `cmd` is this command exactly when `cmd & mask = match`" (30_encoding.md R44). -/
def OpcodeRow.fits (row : OpcodeRow) (v : Cmd) : Bool := v &&& row.mask == row.pattern

/-- The rows of groups 1 to 3 of the opcode map, match and mask copied from 30_encoding.md R44. -/
def opcodeRowsMoveTestAdd : List OpcodeRow :=
  [⟨"MOV", 0x10000000, 0xFF00FFFF⟩, ⟨"SETW", 0x11000000, 0xFF0FFFFF⟩,
   ⟨"SETDW", 0x12000000, 0xFF0FFFFF⟩, ⟨"GETW", 0x13000000, 0xFFF0FFFF⟩,
   ⟨"GETDW", 0x14000000, 0xFFF0FFFF⟩, ⟨"LDW", 0x15000000, 0xFF0F0000⟩,
   ⟨"STW", 0x16000000, 0xFFF00000⟩, ⟨"ISZERO", 0x20000000, 0xFFF0FFFF⟩,
   ⟨"ISODD", 0x21000000, 0xFFF0FFFF⟩, ⟨"ISEVEN", 0x22000000, 0xFFF0FFFF⟩,
   ⟨"ORDER", 0x23000000, 0xFFF0FFFF⟩, ⟨"BITLEN", 0x24000000, 0xFFF0FFFF⟩,
   ⟨"GETBIT", 0x25000000, 0xFFF00000⟩, ⟨"CMP", 0x26000000, 0xFFF00FFF⟩,
   ⟨"ADD", 0x30000000, 0xFF000FFF⟩, ⟨"SUB", 0x31000000, 0xFF000FFF⟩]

/-- The rows of groups 4 to 8 of the opcode map, match and mask copied from 30_encoding.md R44. -/
def opcodeRowsMultiplyToMontgomery : List OpcodeRow :=
  [⟨"MUL", 0x40000000, 0xFF000FFF⟩, ⟨"MULX", 0x41000000, 0xFF0000FF⟩,
   ⟨"DIV", 0x50000000, 0xFF000FFF⟩, ⟨"DIVX", 0x51000000, 0xFF0000FF⟩,
   ⟨"SHL", 0x60000000, 0xFF000000⟩, ⟨"SHR", 0x61000000, 0xFF000000⟩,
   ⟨"SETMOD", 0x70000000, 0xFFF0FFFF⟩, ⟨"MODNORM", 0x71000000, 0xFFF0FFFF⟩,
   ⟨"MODADD", 0x72000000, 0xFF000FFF⟩, ⟨"MODSUB", 0x73000000, 0xFF000FFF⟩,
   ⟨"MODMUL", 0x74000000, 0xFF000FFF⟩, ⟨"MODPOW", 0x75000000, 0xFF000FFF⟩,
   ⟨"MSETUP", 0x80000000, 0xFF000000⟩, ⟨"MTOREPR", 0x81000000, 0xFF00FFFF⟩,
   ⟨"MFROMREPR", 0x82000000, 0xFF00FFFF⟩, ⟨"MMUL", 0x83000000, 0xFF000FFF⟩,
   ⟨"MPOW", 0x84000000, 0xFF000FFF⟩]

/-- The opcode map of 30_encoding.md R44. -/
def opcodeTable : List OpcodeRow := opcodeRowsMoveTestAdd ++ opcodeRowsMultiplyToMontgomery

/-- The instruction the decoder reads from a row of spec/opcode_table.json whose bits are `v`; the block's command word
has 32 bits, and those at and above `nbits` are 0 (log 17). -/
def decodeTableWord (nbits v : Nat) : Option Instr := (decode (BitVec.ofNat 32 (v % 2 ^ nbits))).toOption

end Sys2Proof
end

