-- ==== Sys2Proof/Machine/State.lean ====
section
/-!
DEFINITION. The architectural state of the block (10_state.md R10: "the whole architectural state is the tuple"), the
host's and the platform's pending events beside it, and reset (10_state.md R23, 70_reset_and_hazards.md R170).
-/

namespace Sys2Proof.Machine

/-- `FLAGS` (10_state.md R16): bit 0 `T`, bit 1 `EQ`, bit 2 `LT`, bit 3 `CY`. No command reads a flag and none writes
the register whole, so its four bits are four fields. -/
structure Flags where
  /-- the result of the last test command -/
  t : Bool
  /-- 1 when the two compared values are equal -/
  eq : Bool
  /-- 1 when the first compared value is less than the second -/
  lt : Bool
  /-- `ADD`: the carry out of the most significant word; `SUB`: the borrow out of it -/
  cy : Bool
deriving DecidableEq, Repr

/-- `STATUS.ERR` (10_state.md R18): codes 0, 1 and 2; "values 3 to 15 are never produced". -/
inductive ErrCode where
  | none
  | illegal
  | div0
deriving DecidableEq, Repr

/-- The contents the 19 multi-word registers take at a reset (10_state.md R23): "a model takes the reset content of the
19 multi-word registers as an argument it quantifies over". -/
structure ResetContent where
  r : Vector Nat 16
  mod : Nat
  mn : Nat
  mninv : Nat
deriving DecidableEq, Repr

/-- What reaches the block from outside: the host's port accesses by port index (20_memory.md R31) and the platform's
reset (70_reset_and_hazards.md R170), which brings the contents of the multi-word registers with it. -/
inductive HostEvent where
  /-- `PortRead(p)` -/
  | read (p : Nat)
  /-- `PortWrite(p, v)` -/
  | write (p v : Nat)
  /-- the platform's reset -/
  | reset (content : ResetContent)
deriving DecidableEq, Repr

/-- The host's own bookkeeping (10_state.md R14), no part of the block: the events still to come, the next one first
(log 4), and the values its port reads returned as (port, value), the newest first (log 5). -/
structure HostSide where
  script : List HostEvent
  seen : List (Nat × Nat)
deriving DecidableEq, Repr

/-- The state. A multi-word register is a number below `2^B`, a data port a number below `2^W`: the widths are the
build's, and `Inv` (Safety.lean) says that the numbers fit (log 9). -/
structure State where
  /-- `W` and `N` of this build; no step changes them (00_scope.md R7, log 1) -/
  par : Params
  /-- `r0` to `r15` (10_state.md R11, R12) -/
  r : Vector Nat 16
  /-- `MOD`, the Modulo context (10_state.md R19) -/
  mod : Nat
  /-- `MN`, the Montgomery modulus (10_state.md R20) -/
  mn : Nat
  /-- `MNINV`, the Montgomery constant (10_state.md R20) -/
  mninv : Nat
  /-- `MK`, the Montgomery width (10_state.md R20) -/
  mkWidth : BitVec 16
  /-- `SR`, the scalar result register (10_state.md R17) -/
  sr : BitVec 32
  /-- `FLAGS` (10_state.md R16) -/
  flags : Flags
  /-- `STATUS.ERR` (10_state.md R18) -/
  err : ErrCode
  /-- `ECMD`, the command word of the fault that set `ERR` (10_state.md R18) -/
  ecmd : Cmd
  /-- `DIN0` (10_state.md R21) -/
  din0 : Nat
  /-- `DIN1` (10_state.md R21) -/
  din1 : Nat
  /-- `DOUT0` (10_state.md R21) -/
  dout0 : Nat
  /-- `DOUT1` (10_state.md R21) -/
  dout1 : Nat
  /-- the host's and the platform's side, no part of the block -/
  host : HostSide
deriving DecidableEq, Repr

/-- Why a run about which a claim is made ends in the fault outcome of 60_exceptions.md R156. A step takes the fault: it
answers a next state that holds the record (R152), since the faulted block goes on to answer port accesses (R154); a run
of `claimRun` in HostScript.lean ends there (log 3). Each reason carries the record's `ECMD`. -/
inductive Fault where
  /-- raised by `State.settled` for a run that meets a state with `ERR` = ILLEGAL. Safe: the run stops -/
  | illegal (cmd : Cmd)
  /-- raised by `State.settled` for a run that meets a state with `ERR` = DIV0. Safe: the run stops -/
  | div0 (cmd : Cmd)
deriving DecidableEq, Repr

/-- Why a step has no meaning. -/
inductive Refusal where
  /-- raised by exec for an instruction that has no meaning yet; no arm raises it. Safe: the run stops -/
  | notModelled (mnemonic : String)
  /-- raised by a port read or write with an index above 8: "an access to one is outside the block and outside this
  spec" (20_memory.md R31, 93_implementation_defined.md U13: refuse). Safe: the run stops -/
  | noSuchPort (index : Nat)
deriving DecidableEq, Repr

/-- The state after reset of a build `p` whose 19 multi-word registers come up with `content` (10_state.md R23,
70_reset_and_hazards.md R170); a content is brought into `[0, 2^B)` by dropping the bits a register does not have
(log 10). The host's side is the host's. -/
def State.resetAs (p : Params) (content : ResetContent) (host : HostSide) : State where
  par := p
  r := ⟨⟨content.r.toList.map (· % 2 ^ p.b)⟩, by simp⟩
  mod := content.mod % 2 ^ p.b
  mn := content.mn % 2 ^ p.b
  mninv := content.mninv % 2 ^ p.b
  mkWidth := 0
  sr := 0
  flags := ⟨false, false, false, false⟩
  err := .none
  ecmd := 0
  din0 := 0
  din1 := 0
  dout0 := 0
  dout1 := 0
  host := host

/-- The content `State.reset` names where the spec leaves it open: zero (DESIGN CHOICE, log 2). -/
def ResetContent.zero : ResetContent := ⟨Vector.replicate 16 0, 0, 0, 0⟩

/-- The machine right after reset, with no event pending: the reference build T8 (log 1) with zero contents (log 2). -/
def State.reset : State := State.resetAs Params.t8 ResetContent.zero ⟨[], []⟩

end Sys2Proof.Machine
end

