-- ==== Sys2Proof/Machine/Operands.lean ====
section
/-!
DEFINITION. The operand forms: a register field reads or writes a whole value; a word index picks a digit; the two
data ports form a double-wide value. Numbers only; the notation is 00_scope.md section 4's.
-/

namespace Sys2Proof.Machine

/-- `base = 2^W` (00_scope.md section 4). -/
def base (p : Params) : Nat := 2 ^ p.w

/-- `2^B`, one more than the largest value of a multi-word register. -/
def limit (p : Params) : Nat := 2 ^ p.b

/-- `trunc_B(v) = v mod 2^B` (00_scope.md section 4): "truncating / wrapping: keeping the low `B` bits". -/
def wrap (p : Params) (v : Nat) : Nat := v % limit p

/-- `digit(v, j)`: word `j` of `v`, word 0 the least significant (00_scope.md section 4, 20_memory.md R33). For a value
below `2^B` it is 0 at and above word `N`, as the notation says. -/
def digit (p : Params) (v j : Nat) : Nat := v / 2 ^ (p.w * j) % base p

/-- The `N` words of a value, "least-significant word first" (10_state.md R11). -/
def toWords (p : Params) (v : Nat) : List Nat := (List.range p.n).map (digit p v)

/-- The value of a list of words: "`value = Σ digit[i] · base^i`" (10_state.md R12). -/
def ofWords (p : Params) : List Nat → Nat
  | [] => 0
  | d :: ds => d + base p * ofWords p ds

/-- The value of register `i` (00_scope.md section 4, `r[i]`). No register is hardwired and none has an alias (R11). -/
def State.reg (s : State) (i : Reg) : Nat := s.r[i.val]

/-- `r[i] <- v` (00_scope.md section 4). The rules bring `v` into `[0, 2^B)` before they write it. -/
def State.setReg (s : State) (i : Reg) (v : Nat) : State := { s with r := s.r.set i.val v i.isLt }

/-- `{DIN1, DIN0}`, the double-wide native value, `DIN0` the low word (10_state.md R21, 40_move_convert.md R62). -/
def State.dinPair (s : State) : Nat := s.din1 * base s.par + s.din0

end Sys2Proof.Machine
end

