-- ==== Sys2Proof/Machine/Flags.lean ====
section
/-!
DEFINITION. The flag computations (10_state.md R16): which bits a command writes and with what; every other bit stays.
-/

namespace Sys2Proof.Machine

/-- `FLAGS.T <- b`, written by `ISZERO`, `ISODD`, `ISEVEN`, `GETBIT` (10_state.md R16). -/
def State.setT (s : State) (b : Bool) : State := { s with flags := { s.flags with t := b } }

/-- `FLAGS.CY <- b`, written by `ADD`, `SUB` (10_state.md R16). -/
def State.setCY (s : State) (b : Bool) : State := { s with flags := { s.flags with cy := b } }

/-- `FLAGS.EQ` and `FLAGS.LT` of a comparison of two unsigned values, written by `CMP` (41_tracker_tests.md R76). -/
def State.setCmp (s : State) (a b : Nat) : State :=
  { s with flags := { s.flags with eq := decide (a = b), lt := decide (a < b) } }

/-- A flag as the bit the host reads. -/
def flagBit (b : Bool) : Nat := if b then 1 else 0

/-- `FLAGS` as the 32-bit value of its port: `{0 (28 bits), CY, LT, EQ, T}` (20_memory.md R31). -/
def Flags.toNat (f : Flags) : Nat := 8 * flagBit f.cy + 4 * flagBit f.lt + 2 * flagBit f.eq + flagBit f.t

/-- The code of `STATUS.ERR` (10_state.md R18, 60_exceptions.md R151). -/
def ErrCode.toNat : ErrCode → Nat
  | .none => 0
  | .illegal => 1
  | .div0 => 2

end Sys2Proof.Machine
end

