-- ==== Sys2Proof/Machine/Ops.lean ====
section
/-!
DEFINITION. The operations the commands share: the end of a command, taking a fault, the zero-divisor test, reset, and
the block's port registers. The block has no memory (20_memory.md R30), so there is no memory operation.
-/

namespace Sys2Proof.Machine

/-- How a command ends (70_reset_and_hazards.md R177: "Every command ends"). -/
abbrev Result := Host.Outcome State Fault Refusal

/-- Taking a fault (60_exceptions.md R152): `STATUS.ERR <- code; ECMD <- cmd`, "and nothing else". There is no vector,
no mode and no stack; the machine goes on to the host's next access (log 3). -/
def raise (code : ErrCode) (cmd : Cmd) (s : State) : Result :=
  .next { s with err := code, ecmd := cmd }

/-- `raise Illegal(cmd)` for the command `i` (00_scope.md section 4). -/
def raiseIllegal (i : Instr) (s : State) : Result := raise .illegal (encode i) s

/-- Step 6 of 30_encoding.md R45: `raise DivideByZero(cmd)` when the divisor or modulus `d` of the command `i` is 0
(60_exceptions.md R153), before any write; else go on to `go`. -/
def unlessZero (d : Nat) (i : Instr) (s : State) (go : State) : Result :=
  if d = 0 then raise .div0 (encode i) s else .next go

/-- The platform's reset (70_reset_and_hazards.md R170): the only way out of a fault (60_exceptions.md R155). The build
and the host's side stay. -/
def State.applyReset (s : State) (content : ResetContent) : State := State.resetAs s.par content s.host

/-- The value of a port of the block (20_memory.md R31, host read column); none for an index above 8, which "does not
exist". -/
def State.portValue (s : State) : Nat → Option Nat
  | 0 => some 0
  | 1 => some s.err.toNat
  | 2 => some s.flags.toNat
  | 3 => some s.sr.toNat
  | 4 => some s.din0
  | 5 => some s.din1
  | 6 => some s.dout0
  | 7 => some s.dout1
  | 8 => some s.ecmd.toNat
  | _ => none

/-- `PortRead(p)`: "returns the port's value and changes no state" (20_memory.md R31); the host notes what it saw. -/
def portRead (p : Nat) (s : State) : Result :=
  match s.portValue p with
  | some v => .next { s with host := { s.host with seen := (p, v) :: s.host.seen } }
  | none => .refused (.noSuchPort p)

/-- `DIN0 <- trunc_W(v)` (20_memory.md R31). -/
def State.writeDin0 (s : State) (v : Nat) : State := { s with din0 := v % base s.par }

/-- `DIN1 <- trunc_W(v)` (20_memory.md R31). -/
def State.writeDin1 (s : State) (v : Nat) : State := { s with din1 := v % base s.par }

end Sys2Proof.Machine
end

