-- ==== Sys2Proof/Machine/Units.lean ====
section
/-!
DEFINITION. The block's units as the spec writes them, word by word: adder and subtractor (42_addsub.md), schoolbook
multiplier (43_multiply.md), barrel shifter (45_shift.md), order tracker and comparator (41_tracker_tests.md), the
long-division engine (44_divide.md), square-and-multiply and the Montgomery step (46_modular.md, 47_montgomery.md).
The commands run the adder, subtractor, multiplier, shifter and tracker of this file. The long-division loop, the
word-by-word comparison and the trial subtraction are written beside the results the spec lets a model use for them
(log 13), so that they can be stated equal.
-/

namespace Sys2Proof.Machine

/-- The carry chain of 42_addsub.md R80: per word `s = x + y + c`, `out = s mod 2^W`, `c = s div 2^W`. -/
def addWords (p : Params) : List Nat → List Nat → Nat → List Nat × Nat
  | x :: xs, y :: ys, c =>
    let rest := addWords p xs ys ((x + y + c) / base p)
    ((x + y + c) % base p :: rest.1, rest.2)
  | _, _, c => ([], c)

/-- The multi-word adder (R80): the sum's words as a value, and the carry out of word `N-1`. -/
def addUnit (p : Params) (a b : Nat) : Nat × Nat :=
  let out := addWords p (toWords p a) (toWords p b) 0
  (ofWords p out.1, out.2)

/-- The borrow chain of 42_addsub.md R81: per word the signed `t = x - y - w`, `out = t mod 2^W` in `[0, 2^W)`,
`w = 1 if t < 0 else 0`. -/
def subWords (p : Params) : List Nat → List Nat → Nat → List Nat × Nat
  | x :: xs, y :: ys, c =>
    let t : Int := (x : Int) - (y : Int) - (c : Int)
    let rest := subWords p xs ys (if t < 0 then 1 else 0)
    ((t % (base p : Int)).toNat :: rest.1, rest.2)
  | _, _, c => ([], c)

/-- The multi-word subtractor (R81): the difference's words as a value, and the borrow out of word `N-1`. -/
def subUnit (p : Params) (a b : Nat) : Nat × Nat :=
  let out := subWords p (toWords p a) (toWords p b) 0
  (ofWords p out.1, out.2)

/-- One row of the schoolbook multiplier (43_multiply.md R85, the inner loop): the word `x` against the words `ys`,
added into `out`, `acc = x * y + out + carry`. Past the end of `ys` the row only passes its carry on. -/
def mulRow (p : Params) (x : Nat) : List Nat → List Nat → Nat → List Nat
  | [], _, _ => []
  | o :: os, ys, c =>
    (x * ys.headD 0 + o + c) % base p :: mulRow p x os ys.tail ((x * ys.headD 0 + o + c) / base p)

/-- The outer loop (43_multiply.md R85): row `i` is added into the words of `out` from `i` up, and word `i` is final
after it. The carry out of the last word of `out` is dropped. -/
def mulInto (p : Params) : List Nat → List Nat → List Nat → List Nat
  | [], _, out => out
  | x :: xs, ys, out =>
    match mulRow p x out ys 0 with
    | [] => []
    | o :: os => o :: mulInto p xs ys os

/-- The multiplier's low `N` words (43_multiply.md R85): word pairs with `i + j >= N` are never formed. -/
def mulLow (p : Params) (a b : Nat) : Nat :=
  ofWords p (mulInto p (toWords p a) (toWords p b) (List.replicate p.n 0))

/-- The multiplier's exact product (43_multiply.md R86): "the schoolbook loop of rule R85 run over all `N * N` word pairs
into a `2N`-word array". -/
def mulWide (p : Params) (a b : Nat) : Nat :=
  ofWords p (mulInto p (toWords p a) (toWords p b) (List.replicate (2 * p.n) 0))

/-- Word `j` of the left shift (45_shift.md R100): the word `q` places below shifted by `s` bits, with the bits carried
from the next-lower word. -/
def shlWord (p : Params) (a imm j : Nat) : Nat :=
  let q := imm / p.w
  let s := imm % p.w
  if j < q then 0
  else
    let src := j - q
    let hiPart := digit p a src * 2 ^ s % base p
    let loPart := if s = 0 ∨ src = 0 then 0 else digit p a (src - 1) / 2 ^ (p.w - s)
    hiPart + loPart

/-- The left shift (45_shift.md R100). -/
def shlUnit (p : Params) (a imm : Nat) : Nat := ofWords p ((List.range p.n).map (shlWord p a imm))

/-- Word `j` of the right shift (45_shift.md R101): the word `q` places above shifted by `s` bits, with the bits carried
from the next-higher word. -/
def shrWord (p : Params) (a imm j : Nat) : Nat :=
  let q := imm / p.w
  let s := imm % p.w
  let src := j + q
  if p.n ≤ src then 0
  else
    let loPart := digit p a src / 2 ^ s
    let hiPart := if s = 0 ∨ p.n ≤ src + 1 then 0 else digit p a (src + 1) * 2 ^ (p.w - s) % base p
    loPart + hiPart

/-- The right shift (45_shift.md R101). -/
def shrUnit (p : Params) (a imm : Nat) : Nat := ofWords p ((List.range p.n).map (shrWord p a imm))

/-- "One plus the index of the highest nonzero digit (0 for the zero value)" of a list of words (R73). -/
def orderOfWords : List Nat → Nat
  | [] => 0
  | d :: ds =>
    match orderOfWords ds with
    | 0 => if d = 0 then 0 else 1
    | o + 1 => o + 2

/-- The order of the low `len` words of a value. -/
def orderOn (p : Params) (len v : Nat) : Nat := orderOfWords ((List.range len).map (digit p v))

/-- `order(v)` (00_scope.md section 4, 10_state.md R15, 41_tracker_tests.md R73): a function of the value, no state. -/
def order (p : Params) (v : Nat) : Nat := orderOn p p.n v

/-- `1 + max` of the set bit positions below `k`, 0 if there is none: `bitlen_W` of a word for `k = W` (R74). -/
def leadingBit (v : Nat) : Nat → Nat
  | 0 => 0
  | k + 1 => if v.testBit k then k + 1 else leadingBit v k

/-- `bitlen(v)` as the tracker computes it (41_tracker_tests.md R74, 90_conflicts.md C6): `(o-1)*W` plus the top word's
own bit length. -/
def bitlen (p : Params) (v : Nat) : Nat :=
  match order p v with
  | 0 => 0
  | o + 1 => o * p.w + leadingBit (digit p v o) p.w

/-- Bit `imm` of a value as 41_tracker_tests.md R75 reads it: `(digit(v, imm div W) >> (imm mod W)) & 1` below `B`, else
0. -/
def getBit (p : Params) (v imm : Nat) : Bool :=
  if imm < p.b then digit p v (imm / p.w) / 2 ^ (imm % p.w) % 2 == 1 else false

/-- The comparison from word `j - 1` down (41_tracker_tests.md R76): the first pair of words that differ decides. -/
def cmpFrom (p : Params) (a b : Nat) : Nat → Ordering
  | 0 => .eq
  | j + 1 =>
    if digit p a j = digit p b j then cmpFrom p a b j
    else if digit p a j < digit p b j then .lt else .gt

/-- The document's comparison (41_tracker_tests.md R76), "lexicographic from the most significant word down" over
`max(order_a, order_b)` words. -/
def cmpWords (p : Params) (a b : Nat) : Ordering := cmpFrom p a b (max (order p a) (order p b))

/-- The long-division loop (44_divide.md R92) with any digit estimate `est A D shf`, at most `fuel` turns: quotient and
remainder, or none when the turns run out. -/
def longDivLoop (p : Params) (est : Nat → Nat → Nat → Nat) (D : Nat) : Nat → Nat → Nat → Nat → Option (Nat × Nat)
  | 0, _, _, _ => none
  | fuel + 1, A, Q, shf =>
    if A / base p ^ shf < D then
      match shf with
      | 0 => some (Q, A)
      | k + 1 => longDivLoop p est D fuel A Q k
    else
      longDivLoop p est D fuel (A - D * est A D shf * base p ^ shf) (Q + est A D shf * base p ^ shf) shf

/-- The long-division engine (44_divide.md R92) on a dividend of up to `2N` words: the early exit when the dividend's
order is the smaller one, else the loop from `shf = o1 - o2`. -/
def longDiv (p : Params) (est : Nat → Nat → Nat → Nat) (fuel A D : Nat) : Option (Nat × Nat) :=
  if orderOn p (2 * p.n) A < order p D then some (0, A)
  else longDivLoop p est D fuel A 0 (orderOn p (2 * p.n) A - order p D)

/-- The admissible estimate 44_divide.md R93 gives as an illustration, the "divide by bottom+1" correction. -/
def estimateBottomPlusOne (p : Params) (A D shf : Nat) : Nat :=
  let pos := shf + order p D - 1
  let top := digit p A (pos + 1) * base p + digit p A pos
  let bottom := digit p D (order p D - 1)
  max 1 (top / (bottom + 1))

/-- Square-and-multiply (46_modular.md R110, 47_montgomery.md R119): `len` bits of the exponent `k` from bit `i` up, low
to high, with the multiplication `mul`. -/
def powLoop (mul : Nat → Nat → Nat) (k : Nat) : Nat → Nat → Nat → Nat → Nat
  | 0, _, res, _ => res
  | len + 1, i, res, x => powLoop mul k len (i + 1) (if k.testBit i then mul res x else res) (mul x x)

/-- The exact product reduced, as 46_modular.md R109 multiplies: `(x * y) mod m`. -/
def mulMod (m x y : Nat) : Nat := x * y % m

/-- `MODPOW`'s result (46_modular.md R110): the running result starts at the unreduced 1. -/
def modPow (p : Params) (m x k : Nat) : Nat := powLoop (mulMod m) k (bitlen p k) 0 1 x

/-- `MODSUB`'s two cases, taken literally with wrapping operations (46_modular.md R108). -/
def modSub (p : Params) (m x y : Nat) : Nat :=
  if y ≤ x then x - y else wrap p (wrap p (m + limit p - y) + x)

/-- `to_repr(a)` (47_montgomery.md R116): the truncating shift by `k`, then the remainder. -/
def toRepr (p : Params) (n k a : Nat) : Nat := wrap p (a * 2 ^ k) % n

/-- `t = (a * b) mod 2^B`, "the truncating MUL" (47_montgomery.md R118). -/
def montT (p : Params) (a b : Nat) : Nat := wrap p (a * b)

/-- `u = ((tl * n') mod 2^B) mod 2^k` with `tl = t mod 2^k` (47_montgomery.md R118). -/
def montU (p : Params) (ninv k t : Nat) : Nat := wrap p (t % 2 ^ k * ninv) % 2 ^ k

/-- `res` before the trial subtraction, the `+1` included (47_montgomery.md R118, R122). -/
def montRes (p : Params) (n ninv k t : Nat) : Nat :=
  wrap p (wrap p (montU p ninv k t * n) / 2 ^ k + t / 2 ^ k + 1)

/-- `mmul(a, b)` (47_montgomery.md R118). The loop `while res >= n: res = res - n` leaves `res mod n` (log 13). -/
def mmul (p : Params) (n ninv k a b : Nat) : Nat :=
  if montT p a b = 0 then 0 else montRes p n ninv k (montT p a b) % n

/-- The trial subtraction of 47_montgomery.md R118, at most `fuel` turns. -/
def trialSubtract (n : Nat) : Nat → Nat → Nat
  | 0, res => res
  | fuel + 1, res => if n ≤ res then trialSubtract n fuel (res - n) else res

/-- `MPOW`'s result (47_montgomery.md R119): square-and-multiply over images from the image of 1. -/
def mpow (p : Params) (n ninv k a e : Nat) : Nat :=
  powLoop (mmul p n ninv k) e (bitlen p e) 0 (toRepr p n k 1) a

end Sys2Proof.Machine
end

