-- ==== Sys2Proof/Machine/AddSub.lean ====
section
/-!
DEFINITION. The multi-word adder and subtractor (42_addsub.md R80, R81): `ADD`, `SUB`. Out-of-range results wrap (R83).
-/

namespace Sys2Proof.Machine

/-- `ADD` (R80): the adder's words to `r[rd]`, the carry out of word `N-1` to `FLAGS.CY`. -/
def execAdd (rd ra rb : Reg) (s : State) : Host.Outcome State Fault Refusal :=
  let out := addUnit s.par (s.reg ra) (s.reg rb)
  .next ((s.setReg rd out.1).setCY (decide (out.2 = 1)))

/-- `SUB` (R81): the subtractor's words to `r[rd]`, the borrow out of word `N-1` to `FLAGS.CY`. -/
def execSub (rd ra rb : Reg) (s : State) : Host.Outcome State Fault Refusal :=
  let out := subUnit s.par (s.reg ra) (s.reg rb)
  .next ((s.setReg rd out.1).setCY (decide (out.2 = 1)))

end Sys2Proof.Machine
end

