-- ==== Sys2Proof/Machine/Divide.lean ====
section
/-!
DEFINITION. The long-division engine's commands (44_divide.md R90, R91): `DIV`, `DIVX`. The receiver takes the
remainder, `rd` the quotient; the pair is unique, so the model divides directly (R92, R93, log 13).
-/

namespace Sys2Proof.Machine

/-- `DIV` (R90): ILLEGAL when `rd = ra`, DIV0 when the divisor is 0, else both results. -/
def execDiv (rd ra rb : Reg) (s : State) : Host.Outcome State Fault Refusal :=
  if rd = ra then raiseIllegal (.div rd ra rb) s
  else
    unlessZero (s.reg rb) (.div rd ra rb) s
      ((s.setReg ra (s.reg ra % s.reg rb)).setReg rd (s.reg ra / s.reg rb))

/-- `DIVX` (R91): the dividend is `r[rc] * 2^B + r[ra]`; the quotient keeps its low `B` bits, the remainder is exact. -/
def execDivx (rd ra rb rc : Reg) (s : State) : Host.Outcome State Fault Refusal :=
  if rd = ra then raiseIllegal (.divx rd ra rb rc) s
  else
    let dividend := s.reg rc * limit s.par + s.reg ra
    unlessZero (s.reg rb) (.divx rd ra rb rc) s
      ((s.setReg ra (dividend % s.reg rb)).setReg rd (wrap s.par (dividend / s.reg rb)))

end Sys2Proof.Machine
end

