-- ==== Sys2Proof/Machine/Modular.lean ====
section
/-!
DEFINITION. The modular reduction pipeline (46_modular.md R105 to R111): `SETMOD`, `MODNORM`, `MODADD`, `MODSUB`,
`MODMUL`, `MODPOW`. Every command but `SETMOD` tests `MOD = 0` first (R111).
-/

namespace Sys2Proof.Machine

/-- `SETMOD` (R105): `MOD <- r[ra]`; a zero modulus is accepted. -/
def execSetmod (ra : Reg) (s : State) : Host.Outcome State Fault Refusal :=
  .next { s with mod := s.reg ra }

/-- `MODNORM` (R106): `r[ra] <- r[ra] mod MOD`, in place. -/
def execModnorm (ra : Reg) (s : State) : Host.Outcome State Fault Refusal :=
  unlessZero s.mod (.modnorm ra) s (s.setReg ra (s.reg ra % s.mod))

/-- `MODADD` (R107): the exact sum reduced. -/
def execModadd (rd ra rb : Reg) (s : State) : Host.Outcome State Fault Refusal :=
  unlessZero s.mod (.modadd rd ra rb) s (s.setReg rd ((s.reg ra + s.reg rb) % s.mod))

/-- `MODSUB` (R108): the document's two cases, with the block's wrapping operations. -/
def execModsub (rd ra rb : Reg) (s : State) : Host.Outcome State Fault Refusal :=
  unlessZero s.mod (.modsub rd ra rb) s (s.setReg rd (modSub s.par s.mod (s.reg ra) (s.reg rb)))

/-- `MODMUL` (R109): the exact product reduced. -/
def execModmul (rd ra rb : Reg) (s : State) : Host.Outcome State Fault Refusal :=
  unlessZero s.mod (.modmul rd ra rb) s (s.setReg rd (mulMod s.mod (s.reg ra) (s.reg rb)))

/-- `MODPOW` (R110): square-and-multiply, scanning the exponent's bits low to high. -/
def execModpow (rd ra rb : Reg) (s : State) : Host.Outcome State Fault Refusal :=
  unlessZero s.mod (.modpow rd ra rb) s (s.setReg rd (modPow s.par s.mod (s.reg ra) (s.reg rb)))

end Sys2Proof.Machine
end

