-- ==== Sys2Proof/Machine/Montgomery.lean ====
section
/-!
DEFINITION. The Montgomery reduction unit (47_montgomery.md R115 to R120): `MSETUP`, `MTOREPR`, `MFROMREPR`, `MMUL`,
`MPOW`. Every command but `MSETUP` tests `MN = 0` first (R120); nothing else of the context is checked.
-/

namespace Sys2Proof.Machine

/-- `mmul` on the context of a state (47_montgomery.md R118). -/
def State.mmul (s : State) (a b : Nat) : Nat := Machine.mmul s.par s.mn s.mninv s.mkWidth.toNat a b

/-- `MSETUP` (R115): `MN <- r[ra]; MNINV <- r[rx]; MK <- imm`. -/
def execMsetup (rx ra : Reg) (imm : Imm) (s : State) : Host.Outcome State Fault Refusal :=
  .next { s with mn := s.reg ra, mninv := s.reg rx, mkWidth := imm }

/-- `MTOREPR` (R116). -/
def execMtorepr (rd ra : Reg) (s : State) : Host.Outcome State Fault Refusal :=
  unlessZero s.mn (.mtorepr rd ra) s (s.setReg rd (toRepr s.par s.mn s.mkWidth.toNat (s.reg ra)))

/-- `MFROMREPR` (R117): `mmul(a, 1)` with the plain integer 1 (90_conflicts.md C2). -/
def execMfromrepr (rd ra : Reg) (s : State) : Host.Outcome State Fault Refusal :=
  unlessZero s.mn (.mfromrepr rd ra) s (s.setReg rd (s.mmul (s.reg ra) 1))

/-- `MMUL` (R118), the `+1` corner of R122 included. -/
def execMmul (rd ra rb : Reg) (s : State) : Host.Outcome State Fault Refusal :=
  unlessZero s.mn (.mmul rd ra rb) s (s.setReg rd (s.mmul (s.reg ra) (s.reg rb)))

/-- `MPOW` (R119): base and result are images, the exponent a plain integer. -/
def execMpow (rd ra rb : Reg) (s : State) : Host.Outcome State Fault Refusal :=
  unlessZero s.mn (.mpow rd ra rb) s
    (s.setReg rd (mpow s.par s.mn s.mninv s.mkWidth.toNat (s.reg ra) (s.reg rb)))

end Sys2Proof.Machine
end

