-- ==== Sys2Proof/Machine/Move.lean ====
section
/-!
DEFINITION. Move and convert (40_move_convert.md R60 to R66): `MOV`, `SETW`, `SETDW`, `GETW`, `GETDW`, `LDW`, `STW`.
-/

namespace Sys2Proof.Machine

/-- `MOV` (R60): `r[rd] <- r[ra]`. -/
def execMov (rd ra : Reg) (s : State) : Host.Outcome State Fault Refusal :=
  .next (s.setReg rd (s.reg ra))

/-- `SETW` (R61): `r[rd] <- zext_B(DIN0)`. -/
def execSetw (rd : Reg) (s : State) : Host.Outcome State Fault Refusal :=
  .next (s.setReg rd s.din0)

/-- `SETDW` (R62): `r[rd] <- trunc_B({DIN1, DIN0})`. -/
def execSetdw (rd : Reg) (s : State) : Host.Outcome State Fault Refusal :=
  .next (s.setReg rd (wrap s.par s.dinPair))

/-- `GETW` (R63): `DOUT0 <- trunc_W(r[ra])`; `DOUT1` is unchanged. -/
def execGetw (ra : Reg) (s : State) : Host.Outcome State Fault Refusal :=
  .next { s with dout0 := s.reg ra % base s.par }

/-- `GETDW` (R64): `DOUT0 <- digit(r[ra], 0)`; `DOUT1 <- digit(r[ra], 1)`. -/
def execGetdw (ra : Reg) (s : State) : Host.Outcome State Fault Refusal :=
  .next { s with dout0 := digit s.par (s.reg ra) 0, dout1 := digit s.par (s.reg ra) 1 }

/-- `LDW` (R65): word `imm` of `r[rx]` becomes `DIN0`; ILLEGAL when `imm >= N`. -/
def execLdw (rx : Reg) (imm : Imm) (s : State) : Host.Outcome State Fault Refusal :=
  if s.par.n ≤ imm.toNat then raiseIllegal (.ldw rx imm) s
  else
    .next (s.setReg rx
      (s.reg rx - digit s.par (s.reg rx) imm.toNat * 2 ^ (s.par.w * imm.toNat)
        + s.din0 * 2 ^ (s.par.w * imm.toNat)))

/-- `STW` (R66): `DOUT0 <- digit(r[ra], imm)`; ILLEGAL when `imm >= N`. -/
def execStw (ra : Reg) (imm : Imm) (s : State) : Host.Outcome State Fault Refusal :=
  if s.par.n ≤ imm.toNat then raiseIllegal (.stw ra imm) s
  else .next { s with dout0 := digit s.par (s.reg ra) imm.toNat }

end Sys2Proof.Machine
end

