-- ==== Sys2Proof/Machine/Multiply.lean ====
section
/-!
DEFINITION. The double-width-accumulator multiplier (43_multiply.md R85, R86): `MUL`, `MULX`. No flag is written.
-/

namespace Sys2Proof.Machine

/-- `MUL` (R85): the low `B` bits of the product to `r[rd]`. -/
def execMul (rd ra rb : Reg) (s : State) : Host.Outcome State Fault Refusal :=
  .next (s.setReg rd (mulLow s.par (s.reg ra) (s.reg rb)))

/-- `MULX` (R86): the exact product's low half to `r[rd]`, its high half to `r[rc]`; ILLEGAL when `rd = rc` (R48). -/
def execMulx (rd ra rb rc : Reg) (s : State) : Host.Outcome State Fault Refusal :=
  if rd = rc then raiseIllegal (.mulx rd ra rb rc) s
  else
    let product := mulWide s.par (s.reg ra) (s.reg rb)
    .next ((s.setReg rd (product % limit s.par)).setReg rc (product / limit s.par))

end Sys2Proof.Machine
end

