-- ==== Sys2Proof/Machine/Shift.lean ====
section
/-!
DEFINITION. The barrel shifter (45_shift.md R100, R101): `SHL`, `SHR`, by the immediate count in bits. No flags, no
faults.
-/

namespace Sys2Proof.Machine

/-- `SHL` (R100): left by `imm` bits, keeping the low `B` bits. -/
def execShl (rx ra : Reg) (imm : Imm) (s : State) : Host.Outcome State Fault Refusal :=
  .next (s.setReg rx (shlUnit s.par (s.reg ra) imm.toNat))

/-- `SHR` (R101): right by `imm` bits, zeros entering at the top. -/
def execShr (rx ra : Reg) (imm : Imm) (s : State) : Host.Outcome State Fault Refusal :=
  .next (s.setReg rx (shrUnit s.par (s.reg ra) imm.toNat))

end Sys2Proof.Machine
end

