-- ==== Sys2Proof/Machine/Tracker.lean ====
section
/-!
DEFINITION. The order/leading-zero tracker and the tests (41_tracker_tests.md R70 to R76): `ISZERO`, `ISODD`, `ISEVEN`,
`ORDER`, `BITLEN`, `GETBIT`, `CMP`. None of them writes an operand register.
-/

namespace Sys2Proof.Machine

/-- `ISZERO` (R70): `FLAGS.T <- 1 if r[ra] = 0 else 0`, over the whole value (90_conflicts.md C4). -/
def execIszero (ra : Reg) (s : State) : Host.Outcome State Fault Refusal :=
  .next (s.setT (decide (s.reg ra = 0)))

/-- `ISODD` (R71): `FLAGS.T <- r[ra][0]`. -/
def execIsodd (ra : Reg) (s : State) : Host.Outcome State Fault Refusal :=
  .next (s.setT (decide (s.reg ra % 2 = 1)))

/-- `ISEVEN` (R72): `FLAGS.T <- 1 - r[ra][0]`. -/
def execIseven (ra : Reg) (s : State) : Host.Outcome State Fault Refusal :=
  .next (s.setT (decide (s.reg ra % 2 = 0)))

/-- `ORDER` (R73): `SR <- order(r[ra])`. -/
def execOrder (ra : Reg) (s : State) : Host.Outcome State Fault Refusal :=
  .next { s with sr := BitVec.ofNat 32 (order s.par (s.reg ra)) }

/-- `BITLEN` (R74): `SR <- bitlen(r[ra])`. -/
def execBitlen (ra : Reg) (s : State) : Host.Outcome State Fault Refusal :=
  .next { s with sr := BitVec.ofNat 32 (bitlen s.par (s.reg ra)) }

/-- `GETBIT` (R75): `FLAGS.T <- r[ra][imm]`, 0 at and above `B`. -/
def execGetbit (ra : Reg) (imm : Imm) (s : State) : Host.Outcome State Fault Refusal :=
  .next (s.setT (getBit s.par (s.reg ra) imm.toNat))

/-- `CMP` (R76): `FLAGS.EQ` and `FLAGS.LT` of the two unsigned values. -/
def execCmp (ra rb : Reg) (s : State) : Host.Outcome State Fault Refusal :=
  .next (s.setCmp (s.reg ra) (s.reg rb))

end Sys2Proof.Machine
end

