-- ==== Sys2Proof/Machine/Dispatch.lean ====
section
/-!
DEFINITION. The dispatch: one arm per command of 30_encoding.md R44, step 7 of R45 ("execute the command's rule"). Each
meaning holds its own checks of steps 4 to 6.
-/

namespace Sys2Proof.Machine

/-- What a command does to the state (30_encoding.md R45). -/
def exec (i : Instr) (s : State) : Host.Outcome State Fault Refusal :=
  match i with
  | .mov rd ra => Sys2Proof.Machine.execMov rd ra s
  | .setw rd => Sys2Proof.Machine.execSetw rd s
  | .setdw rd => Sys2Proof.Machine.execSetdw rd s
  | .getw ra => Sys2Proof.Machine.execGetw ra s
  | .getdw ra => Sys2Proof.Machine.execGetdw ra s
  | .ldw rx imm => Sys2Proof.Machine.execLdw rx imm s
  | .stw ra imm => Sys2Proof.Machine.execStw ra imm s
  | .iszero ra => Sys2Proof.Machine.execIszero ra s
  | .isodd ra => Sys2Proof.Machine.execIsodd ra s
  | .iseven ra => Sys2Proof.Machine.execIseven ra s
  | .order ra => Sys2Proof.Machine.execOrder ra s
  | .bitlen ra => Sys2Proof.Machine.execBitlen ra s
  | .getbit ra imm => Sys2Proof.Machine.execGetbit ra imm s
  | .cmp ra rb => Sys2Proof.Machine.execCmp ra rb s
  | .add rd ra rb => Sys2Proof.Machine.execAdd rd ra rb s
  | .sub rd ra rb => Sys2Proof.Machine.execSub rd ra rb s
  | .mul rd ra rb => Sys2Proof.Machine.execMul rd ra rb s
  | .mulx rd ra rb rc => Sys2Proof.Machine.execMulx rd ra rb rc s
  | .div rd ra rb => Sys2Proof.Machine.execDiv rd ra rb s
  | .divx rd ra rb rc => Sys2Proof.Machine.execDivx rd ra rb rc s
  | .shl rx ra imm => Sys2Proof.Machine.execShl rx ra imm s
  | .shr rx ra imm => Sys2Proof.Machine.execShr rx ra imm s
  | .setmod ra => Sys2Proof.Machine.execSetmod ra s
  | .modnorm ra => Sys2Proof.Machine.execModnorm ra s
  | .modadd rd ra rb => Sys2Proof.Machine.execModadd rd ra rb s
  | .modsub rd ra rb => Sys2Proof.Machine.execModsub rd ra rb s
  | .modmul rd ra rb => Sys2Proof.Machine.execModmul rd ra rb s
  | .modpow rd ra rb => Sys2Proof.Machine.execModpow rd ra rb s
  | .msetup rx ra imm => Sys2Proof.Machine.execMsetup rx ra imm s
  | .mtorepr rd ra => Sys2Proof.Machine.execMtorepr rd ra s
  | .mfromrepr rd ra => Sys2Proof.Machine.execMfromrepr rd ra s
  | .mmul rd ra rb => Sys2Proof.Machine.execMmul rd ra rb s
  | .mpow rd ra rb => Sys2Proof.Machine.execMpow rd ra rb s

end Sys2Proof.Machine
end

