-- ==== Sys2Proof/Machine/Ports.lean ====
section
/-!
DEFINITION. What the block does with one access of the host (20_memory.md R31, 30_encoding.md R45) or with the platform's
reset (70_reset_and_hazards.md R170).
-/

namespace Sys2Proof.Machine

/-- A write of `cmd` to port `CMD`: steps 1 to 7 of 30_encoding.md R45. While `STATUS.ERR` is not 0 "every write to `CMD`
is refused: it changes no state at all" (60_exceptions.md R154); a word that is no command is illegal (R49); a command
runs whole before the next access (70_reset_and_hazards.md R176). -/
def writeCmd (cmd : Cmd) (s : State) : Result :=
  if s.err ≠ .none then .next s
  else
    match decode cmd with
    | .error _ => raise .illegal cmd s
    | .ok i => exec i s

/-- `PortWrite(p, v)` (20_memory.md R31, host write column). A write to a read-only port changes nothing (92 D33); an
index above 8 is outside the block (93 U13). The 32-bit port `CMD` takes the low 32 bits of `v` (log 8). -/
def portWrite (p v : Nat) (s : State) : Result :=
  match p with
  | 0 => writeCmd (BitVec.ofNat 32 v) s
  | 1 => .next s
  | 2 => .next s
  | 3 => .next s
  | 4 => .next (s.writeDin0 v)
  | 5 => .next (s.writeDin1 v)
  | 6 => .next s
  | 7 => .next s
  | 8 => .next s
  | k => .refused (.noSuchPort k)

/-- What one event from outside does (10_state.md R10, 70_reset_and_hazards.md R170, R176). -/
def takeEvent (e : HostEvent) (s : State) : Result :=
  match e with
  | .read p => portRead p s
  | .write p v => portWrite p v s
  | .reset content => .next (s.applyReset content)

/-- The state in which the next event has been taken off the host's list. -/
def State.popEvent (s : State) (rest : List HostEvent) : State :=
  { s with host := { s.host with script := rest } }

/-- The state in which `e` is the next event, before those pending. -/
def State.pushEvent (s : State) (e : HostEvent) : State := s.popEvent (e :: s.host.script)

end Sys2Proof.Machine
end

