-- ==== Sys2Proof/Machine/Step.lean ====
section
/-!
DEFINITION. One step: the next access of the host, or the platform's reset, taken whole (20_memory.md R38,
70_reset_and_hazards.md R176). With nothing pending the block "is idle and holds its state" (60_exceptions.md R161).
-/

namespace Sys2Proof.Machine

/-- One step of the machine. -/
def step (s : State) : Host.Outcome State Fault Refusal :=
  match s.host.script with
  | [] => .next s
  | e :: rest => takeEvent e (s.popEvent rest)

/-- `s` with the command word `v` about to be written to port `CMD`, which is how the block gets every command
(10_state.md R14, log 6); bits at and above `nbits` are 0 (log 17). -/
def State.withFetchWord (s : State) (nbits v : Nat) : State := s.pushEvent (.write 0 (v % 2 ^ nbits))

end Sys2Proof.Machine
end

