-- ==== Sys2Proof/Machine/Assembler.lean ====
section
/-!
DEFINITION. The assembler's operand order (30_encoding.md R50). A line is a mnemonic and its operands; reading the
characters of a line (either case, decimal or hexadecimal, commas) is outside the model (log 18).
-/

namespace Sys2Proof.Machine

/-- One operand of an assembler line: `rN` or a number (30_encoding.md R50). -/
inductive Operand where
  | reg (r : Reg)
  | num (n : Nat)
deriving DecidableEq, Repr

/-- The operands of a command in the order its assembler line gives them (30_encoding.md R50). -/
def operands : Instr → List Operand
  | .mov rd ra => [.reg rd, .reg ra]
  | .setw rd => [.reg rd]
  | .setdw rd => [.reg rd]
  | .getw ra => [.reg ra]
  | .getdw ra => [.reg ra]
  | .ldw rx imm => [.reg rx, .num imm.toNat]
  | .stw ra imm => [.reg ra, .num imm.toNat]
  | .iszero ra => [.reg ra]
  | .isodd ra => [.reg ra]
  | .iseven ra => [.reg ra]
  | .order ra => [.reg ra]
  | .bitlen ra => [.reg ra]
  | .getbit ra imm => [.reg ra, .num imm.toNat]
  | .cmp ra rb => [.reg ra, .reg rb]
  | .add rd ra rb => [.reg rd, .reg ra, .reg rb]
  | .sub rd ra rb => [.reg rd, .reg ra, .reg rb]
  | .mul rd ra rb => [.reg rd, .reg ra, .reg rb]
  | .mulx rd ra rb rc => [.reg rd, .reg rc, .reg ra, .reg rb]
  | .div rd ra rb => [.reg rd, .reg ra, .reg rb]
  | .divx rd ra rb rc => [.reg rd, .reg ra, .reg rc, .reg rb]
  | .shl rx ra imm => [.reg rx, .reg ra, .num imm.toNat]
  | .shr rx ra imm => [.reg rx, .reg ra, .num imm.toNat]
  | .setmod ra => [.reg ra]
  | .modnorm ra => [.reg ra]
  | .modadd rd ra rb => [.reg rd, .reg ra, .reg rb]
  | .modsub rd ra rb => [.reg rd, .reg ra, .reg rb]
  | .modmul rd ra rb => [.reg rd, .reg ra, .reg rb]
  | .modpow rd ra rb => [.reg rd, .reg ra, .reg rb]
  | .msetup rx ra imm => [.reg ra, .reg rx, .num imm.toNat]
  | .mtorepr rd ra => [.reg rd, .reg ra]
  | .mfromrepr rd ra => [.reg rd, .reg ra]
  | .mmul rd ra rb => [.reg rd, .reg ra, .reg rb]
  | .mpow rd ra rb => [.reg rd, .reg ra, .reg rb]

/-- A number as `IMM16`: only `[0, 65535]` fits (30_encoding.md R43). -/
def immOf (n : Nat) : Option Imm := if n < 65536 then some (BitVec.ofNat 16 n) else none

/-- The command an assembler line stands for (30_encoding.md R50); none when the operands do not fit the mnemonic. -/
def assemble : String → List Operand → Option Instr
  | "MOV", [.reg rd, .reg ra] => some (.mov rd ra)
  | "SETW", [.reg rd] => some (.setw rd)
  | "SETDW", [.reg rd] => some (.setdw rd)
  | "GETW", [.reg ra] => some (.getw ra)
  | "GETDW", [.reg ra] => some (.getdw ra)
  | "LDW", [.reg rx, .num n] => (immOf n).map (.ldw rx)
  | "STW", [.reg ra, .num n] => (immOf n).map (.stw ra)
  | "ISZERO", [.reg ra] => some (.iszero ra)
  | "ISODD", [.reg ra] => some (.isodd ra)
  | "ISEVEN", [.reg ra] => some (.iseven ra)
  | "ORDER", [.reg ra] => some (.order ra)
  | "BITLEN", [.reg ra] => some (.bitlen ra)
  | "GETBIT", [.reg ra, .num n] => (immOf n).map (.getbit ra)
  | "CMP", [.reg ra, .reg rb] => some (.cmp ra rb)
  | "ADD", [.reg rd, .reg ra, .reg rb] => some (.add rd ra rb)
  | "SUB", [.reg rd, .reg ra, .reg rb] => some (.sub rd ra rb)
  | "MUL", [.reg rd, .reg ra, .reg rb] => some (.mul rd ra rb)
  | "MULX", [.reg rd, .reg rc, .reg ra, .reg rb] => some (.mulx rd ra rb rc)
  | "DIV", [.reg rd, .reg ra, .reg rb] => some (.div rd ra rb)
  | "DIVX", [.reg rd, .reg ra, .reg rc, .reg rb] => some (.divx rd ra rb rc)
  | "SHL", [.reg rx, .reg ra, .num n] => (immOf n).map (.shl rx ra)
  | "SHR", [.reg rx, .reg ra, .num n] => (immOf n).map (.shr rx ra)
  | "SETMOD", [.reg ra] => some (.setmod ra)
  | "MODNORM", [.reg ra] => some (.modnorm ra)
  | "MODADD", [.reg rd, .reg ra, .reg rb] => some (.modadd rd ra rb)
  | "MODSUB", [.reg rd, .reg ra, .reg rb] => some (.modsub rd ra rb)
  | "MODMUL", [.reg rd, .reg ra, .reg rb] => some (.modmul rd ra rb)
  | "MODPOW", [.reg rd, .reg ra, .reg rb] => some (.modpow rd ra rb)
  | "MSETUP", [.reg ra, .reg rx, .num n] => (immOf n).map (.msetup rx ra)
  | "MTOREPR", [.reg rd, .reg ra] => some (.mtorepr rd ra)
  | "MFROMREPR", [.reg rd, .reg ra] => some (.mfromrepr rd ra)
  | "MMUL", [.reg rd, .reg ra, .reg rb] => some (.mmul rd ra rb)
  | "MPOW", [.reg rd, .reg ra, .reg rb] => some (.mpow rd ra rb)
  | _, _ => none

end Sys2Proof.Machine
end

