-- ==== Sys2Proof/Machine/HostScript.lean ====
section
/-!
DEFINITION. Host scripts (30_encoding.md R51, R52): a list of port accesses, the pseudo-command `li`, a run of several
steps, the run a claim is made about (60_exceptions.md R156), and the byte image of a value outside the block (20_memory.md R34).
-/

namespace Sys2Proof.Machine

/-- A command line of a host script: `PortWrite(CMD, word)` (30_encoding.md R51). -/
def cmdLine (i : Instr) : HostEvent := .write 0 (encode i).toNat

/-- The word indices `li` writes with `LDW`: from 1 to `N-1` in rising order, the nonzero words only (R52). -/
def liIndices (p : Params) (value : Nat) : List Nat :=
  (List.range' 1 (p.n - 1)).filter fun j => digit p value j != 0

/-- The two lines `wr DIN0, digit(value, j)` and `ldw rd, j` of `li` (30_encoding.md R52). -/
def liWord (p : Params) (rd : Reg) (value j : Nat) : List HostEvent :=
  [.write 4 (digit p value j), cmdLine (.ldw rd (BitVec.ofNat 16 j))]

/-- `li rd, value` expanded (30_encoding.md R52). -/
def liScript (p : Params) (rd : Reg) (value : Nat) : List HostEvent :=
  .write 4 (digit p value 0) :: cmdLine (.setw rd) :: (liIndices p value).flatMap (liWord p rd value)

/-- `k` steps, stopping at a refusal. A faulted block answers port accesses (60_exceptions.md R154), so this run goes on
after a fault. -/
def run : Nat → State → Result
  | 0, s => .next s
  | k + 1, s =>
    match step s with
    | .next t => run k t
    | .fault e => .fault e
    | .refused e => .refused e

/-- A state as the end of a run that a claim may be made about: "A state with `STATUS.ERR != 0` is never a final state"
of one, it is "the guide's *fault* outcome" (60_exceptions.md R156). -/
def State.settled (s : State) : Result :=
  match s.err with
  | .none => .next s
  | .illegal => .fault (.illegal s.ecmd)
  | .div0 => .fault (.div0 s.ecmd)

/-- `k` steps as a claim sees them (60_exceptions.md R156): the run ends in the fault outcome at the first state with
`STATUS.ERR != 0`, the one it starts in and the one it ends in included (log 3). -/
def claimRun : Nat → State → Result
  | 0, s => s.settled
  | k + 1, s =>
    if s.err = .none then
      match step s with
      | .next t => claimRun k t
      | .fault e => .fault e
      | .refused e => .refused e
    else s.settled

/-- The byte image of a value, byte `b` being `v[8*b+7 : 8*b]` (20_memory.md R34). For a `B` that is no multiple of 8 the
spec leaves the image open (91_not_in_source.md N2): the model takes `B div 8` bytes and drops the bits above them, a
DESIGN CHOICE (log 22). -/
def byteImage (p : Params) (v : Nat) : List Nat := (List.range (p.b / 8)).map fun b => v / 2 ^ (8 * b) % 2 ^ 8

/-- The bytes of one word, the lowest first, as a little-endian bus stores it (20_memory.md R34); for a `W` that is no
multiple of 8 the bits above the last whole byte are dropped (DESIGN CHOICE, log 22). -/
def wordBytes (p : Params) (d : Nat) : List Nat := (List.range (p.w / 8)).map fun b => d / 2 ^ (8 * b) % 2 ^ 8

end Sys2Proof.Machine
end

