-- ==== Sys2Proof/Safety.lean ====
section
/-!
DEFINITION. The words the statements use: the invariant, a safe state, what a command may read and write (10_state.md
R24), the shapes of a command's effect with its frame, and the conditions of the Montgomery rules. No step uses this
file.
-/

namespace Sys2Proof.Machine

/-- A state a claim about a command sequence starts and ends in: `STATUS.ERR = 0` (60_exceptions.md R156). -/
abbrev Safe (s : State) : Prop := s.err = .none

/-- The invariant of the block: the build is one (00_scope.md R7); every multi-word register is below `2^B` and every
data port below `2^W` (10_state.md R11, R19 to R21); `SR` is at most `B` (R17); `EQ` and `LT` are never both 1
(41_tracker_tests.md R76); `ECMD` is 0 while `ERR` is 0 (R18). -/
abbrev Inv (s : State) : Prop :=
  s.par.ok ∧ (∀ j : Reg, s.reg j < limit s.par) ∧
  s.mod < limit s.par ∧ s.mn < limit s.par ∧ s.mninv < limit s.par ∧
  s.din0 < base s.par ∧ s.din1 < base s.par ∧ s.dout0 < base s.par ∧ s.dout1 < base s.par ∧
  s.sr.toNat ≤ s.par.b ∧ ¬(s.flags.eq = true ∧ s.flags.lt = true) ∧ (s.err = .none → s.ecmd = 0)

/-! ### Effects with their frames -/

/-- `t` is `s` with register `d` holding `v`: no other register and no other part of the state differs. -/
abbrev WritesReg (s t : State) (d : Reg) (v : Nat) : Prop :=
  t.reg d = v ∧ (∀ j, j ≠ d → t.reg j = s.reg j) ∧ t = { s with r := t.r }

/-- `t` is `s` with registers `d` and `e` holding `v` and `u`, and nothing else changed. -/
abbrev WritesTwoRegs (s t : State) (d : Reg) (v : Nat) (e : Reg) (u : Nat) : Prop :=
  t.reg d = v ∧ t.reg e = u ∧ (∀ j, j ≠ d → j ≠ e → t.reg j = s.reg j) ∧ t = { s with r := t.r }

/-- `t` is `s` with register `d` holding `v` and `FLAGS.CY` equal to `c`, and nothing else changed. -/
abbrev WritesRegAndCY (s t : State) (d : Reg) (v : Nat) (c : Bool) : Prop :=
  t.reg d = v ∧ (∀ j, j ≠ d → t.reg j = s.reg j) ∧ t = { s with r := t.r, flags := { s.flags with cy := c } }

/-- `t` is `s` with the fault record of the command `i`, and nothing else changed (60_exceptions.md R152). -/
abbrev RecordsFault (s t : State) (code : ErrCode) (i : Instr) : Prop := t = { s with err := code, ecmd := encode i }

/-! ### The access table (10_state.md R24) -/

/-- A column entry of the access table: an operand register, a context, a data port, the scalar register or a flag. -/
inductive Part where
  | reg (r : Reg)
  | mod
  | mont
  | din0
  | din1
  | dout0
  | dout1
  | sr
  | flagT
  | flagCmp
  | flagCY
deriving DecidableEq, Repr

/-- Two states hold the same in one part. -/
def Part.Agree (q : Part) (s u : State) : Prop :=
  match q with
  | .reg r => s.reg r = u.reg r
  | .mod => s.mod = u.mod
  | .mont => s.mn = u.mn ∧ s.mninv = u.mninv ∧ s.mkWidth = u.mkWidth
  | .din0 => s.din0 = u.din0
  | .din1 => s.din1 = u.din1
  | .dout0 => s.dout0 = u.dout0
  | .dout1 => s.dout1 = u.dout1
  | .sr => s.sr = u.sr
  | .flagT => s.flags.t = u.flags.t
  | .flagCmp => s.flags.eq = u.flags.eq ∧ s.flags.lt = u.flags.lt
  | .flagCY => s.flags.cy = u.flags.cy

/-- The R column of 10_state.md R24. -/
def reads : Instr → List Part
  | .mov _ ra => [.reg ra]
  | .setw _ => [.din0]
  | .setdw _ => [.din0, .din1]
  | .getw ra => [.reg ra]
  | .getdw ra => [.reg ra]
  | .ldw rx _ => [.reg rx, .din0]
  | .stw ra _ => [.reg ra]
  | .iszero ra => [.reg ra]
  | .isodd ra => [.reg ra]
  | .iseven ra => [.reg ra]
  | .order ra => [.reg ra]
  | .bitlen ra => [.reg ra]
  | .getbit ra _ => [.reg ra]
  | .cmp ra rb => [.reg ra, .reg rb]
  | .add _ ra rb => [.reg ra, .reg rb]
  | .sub _ ra rb => [.reg ra, .reg rb]
  | .mul _ ra rb => [.reg ra, .reg rb]
  | .mulx _ ra rb _ => [.reg ra, .reg rb]
  | .div _ ra rb => [.reg ra, .reg rb]
  | .divx _ ra rb rc => [.reg ra, .reg rb, .reg rc]
  | .shl _ ra _ => [.reg ra]
  | .shr _ ra _ => [.reg ra]
  | .setmod ra => [.reg ra]
  | .modnorm ra => [.reg ra, .mod]
  | .modadd _ ra rb => [.reg ra, .reg rb, .mod]
  | .modsub _ ra rb => [.reg ra, .reg rb, .mod]
  | .modmul _ ra rb => [.reg ra, .reg rb, .mod]
  | .modpow _ ra rb => [.reg ra, .reg rb, .mod]
  | .msetup rx ra _ => [.reg ra, .reg rx]
  | .mtorepr _ ra => [.reg ra, .mont]
  | .mfromrepr _ ra => [.reg ra, .mont]
  | .mmul _ ra rb => [.reg ra, .reg rb, .mont]
  | .mpow _ ra rb => [.reg ra, .reg rb, .mont]

/-- The W column of 10_state.md R24. -/
def writes : Instr → List Part
  | .mov rd _ => [.reg rd]
  | .setw rd => [.reg rd]
  | .setdw rd => [.reg rd]
  | .getw _ => [.dout0]
  | .getdw _ => [.dout0, .dout1]
  | .ldw rx _ => [.reg rx]
  | .stw _ _ => [.dout0]
  | .iszero _ => [.flagT]
  | .isodd _ => [.flagT]
  | .iseven _ => [.flagT]
  | .order _ => [.sr]
  | .bitlen _ => [.sr]
  | .getbit _ _ => [.flagT]
  | .cmp _ _ => [.flagCmp]
  | .add rd _ _ => [.reg rd, .flagCY]
  | .sub rd _ _ => [.reg rd, .flagCY]
  | .mul rd _ _ => [.reg rd]
  | .mulx rd _ _ rc => [.reg rd, .reg rc]
  | .div rd ra _ => [.reg ra, .reg rd]
  | .divx rd ra _ _ => [.reg ra, .reg rd]
  | .shl rx _ _ => [.reg rx]
  | .shr rx _ _ => [.reg rx]
  | .setmod _ => [.mod]
  | .modnorm ra => [.reg ra]
  | .modadd rd _ _ => [.reg rd]
  | .modsub rd _ _ => [.reg rd]
  | .modmul rd _ _ => [.reg rd]
  | .modpow rd _ _ => [.reg rd]
  | .msetup _ _ _ => [.mont]
  | .mtorepr rd _ => [.reg rd]
  | .mfromrepr rd _ => [.reg rd]
  | .mmul rd _ _ => [.reg rd]
  | .mpow rd _ _ => [.reg rd]

/-! ### Fault conditions -/

/-- The DIV0 cases of 60_exceptions.md R153: the divisor of `DIV` and `DIVX`, `MOD` of the five Modulo commands that
use it, `MN` of the four Montgomery commands that use it; "no other command can raise it". -/
def zeroDivisor (i : Instr) (s : State) : Prop :=
  match i with
  | .div _ _ rb => s.reg rb = 0
  | .divx _ _ rb _ => s.reg rb = 0
  | .modnorm _ => s.mod = 0
  | .modadd _ _ _ => s.mod = 0
  | .modsub _ _ _ => s.mod = 0
  | .modmul _ _ _ => s.mod = 0
  | .modpow _ _ _ => s.mod = 0
  | .mtorepr _ _ => s.mn = 0
  | .mfromrepr _ _ => s.mn = 0
  | .mmul _ _ _ => s.mn = 0
  | .mpow _ _ _ => s.mn = 0
  | _ => False

/-! ### Division -/

/-- A digit estimate 44_divide.md R93 admits for the divisor `D`: "at a step where `wnd >= D`, `e` is an integer with
`1 <= e <= wnd div D`", a step of the loop keeping R94's invariant `A < D * base^(shf+1)`. -/
def Admissible (p : Params) (est : Nat → Nat → Nat → Nat) (D : Nat) : Prop :=
  ∀ A shf, D ≤ A / base p ^ shf → A < D * base p ^ (shf + 1) →
    1 ≤ est A D shf ∧ est A D shf ≤ A / base p ^ shf / D

/-! ### Square-and-multiply and the Montgomery rules -/

/-- Square-and-multiply read off the exponent, "bits from low to high" (46_modular.md R110, 47_montgomery.md R119): from
the running result `res` and the running power `x`, the exponent `k` leads to `out`. -/
inductive SquareMultiply (mul : Nat → Nat → Nat) : Nat → Nat → Nat → Nat → Prop where
  | done (res x : Nat) : SquareMultiply mul 0 res x res
  | bit (k res x out : Nat) (hk : k ≠ 0)
      (h : SquareMultiply mul (k / 2) (if k % 2 = 1 then mul res x else res) (mul x x) out) :
      SquareMultiply mul k res x out

/-- `mmul(a, b)` of 47_montgomery.md R118 line by line, the trial subtraction included: `out` is what it returns. -/
def MontgomeryStep (p : Params) (n ninv k a b out : Nat) : Prop :=
  let t := a * b % 2 ^ p.b
  if t = 0 then out = 0
  else
    let tl := t % 2 ^ k
    let u := tl * ninv % 2 ^ p.b % 2 ^ k
    let res := (u * n % 2 ^ p.b / 2 ^ k + t / 2 ^ k + 1) % 2 ^ p.b
    ∀ fuel, res ≤ fuel → out = trialSubtract n fuel res

/-- A Montgomery context that meets the conditions of 47_montgomery.md R121: `n` odd, `bitlen(n) <= k`, `n * n' ≡ -1
(mod 2^k)`, `0 <= n' < 2^k`, `2k <= B`. -/
abbrev GoodContext (s : State) : Prop :=
  s.mn % 2 = 1 ∧ s.mn < 2 ^ s.mkWidth.toNat ∧ (s.mn * s.mninv + 1) % 2 ^ s.mkWidth.toNat = 0 ∧
  s.mninv < 2 ^ s.mkWidth.toNat ∧ 2 * s.mkWidth.toNat ≤ s.par.b

/-- The corner of 47_montgomery.md R122: `t != 0` and `t mod 2^k = 0`. -/
abbrev Corner (p : Params) (k a b : Nat) : Prop := montT p a b ≠ 0 ∧ montT p a b % 2 ^ k = 0

/-- No multiplication of a Montgomery power meets the corner: the side condition of 93_implementation_defined.md U6,
for the exponent `e` from the running result `res` and the running power `x`. -/
inductive CornerFree (p : Params) (n ninv k : Nat) : Nat → Nat → Nat → Prop where
  | done (res x : Nat) : CornerFree p n ninv k 0 res x
  | bit (e res x : Nat) (he : e ≠ 0) (hmul : e % 2 = 1 → ¬ Corner p k res x) (hsq : ¬ Corner p k x x)
      (h : CornerFree p n ninv k (e / 2) (if e % 2 = 1 then mmul p n ninv k res x else res) (mmul p n ninv k x x)) :
      CornerFree p n ninv k e res x

/-- No reset is pending. -/
abbrev NoReset (s : State) : Prop := ∀ e ∈ s.host.script, ∀ c, e ≠ .reset c

end Sys2Proof.Machine
end

