-- ==== Sys2Proof/Certificates/Slice0/Obligations.lean ====
section
/-!
DEFINITION. The statements about the model. Each docstring names the rule of spec/ it formalises. A value the spec leaves
open (W, N, the reset contents, the digit estimate) is a bound variable everywhere.
-/

open Sys2Proof Sys2Proof.Machine

/-! ### Encoding -/

/-- Decoding the word of a command gives the command back, for every operand value (30_encoding.md R41 to R44). -/
def Obligations.DecodeOfEncode : Prop := ∀ i : Instr, decode (encode i) = .ok i

/-- A word that decodes to a command is that command's word: every bit of it is a field or is 0 (R44, R45 step 3). -/
def Obligations.EncodeOfDecode : Prop := ∀ (v : Cmd) (i : Instr), decode v = .ok i → encode i = v

/-- A word decodes to a command of mnemonic `m` exactly when it fits the match and mask of the row of `m` (R44). -/
def Obligations.DecodeIffOpcodeRow : Prop :=
  ∀ (v : Cmd) (m : String),
    (∃ i, decode v = .ok i ∧ i.mnemonic = m) ↔ ∃ row ∈ opcodeTable, row.mnemonic = m ∧ v &&& row.mask = row.pattern

/-- Every word is exactly one command of the opcode map or illegal (R46). -/
def Obligations.WordIsOneCommandOrIllegal : Prop :=
  ∀ v : Cmd,
    ((∃! i, decode v = .ok i) ∧ ∃! row, row ∈ opcodeTable ∧ v &&& row.mask = row.pattern) ∨
    ((∃ e, decode v = .error e) ∧ ∀ row ∈ opcodeTable, v &&& row.mask ≠ row.pattern)

/-- The words 30_encoding.md R50 gives as examples decode to their commands, one word of another family each. -/
def Obligations.ExampleWordsDecode : Prop :=
  decode 0x30312000 = .ok (.add 3 1 2) ∧ decode 0x6045000C = .ok (.shl 4 5 12) ∧
  decode 0x41201300 = .ok (.mulx 2 0 1 3) ∧ decode 0x51425300 = .ok (.divx 4 2 5 3) ∧
  decode 0x80210008 = .ok (.msetup 2 1 8) ∧ decode 0x15100002 = .ok (.ldw 1 2) ∧
  decode 0x26012000 = .ok (.cmp 1 2) ∧ decode 0x75312000 = .ok (.modpow 3 1 2) ∧
  decode 0x00000000 = .error .unknownOpcode ∧ decode 0x30312100 = .error .unusedFieldNotZero

/-- Assembling a command's mnemonic and its operands in R50's order gives the command back. -/
def Obligations.AssembleOfOperands : Prop := ∀ i : Instr, assemble i.mnemonic (operands i) = some i

/-! ### The step, the ports, faults and reset -/

/-- A write to `CMD` of a word that decodes runs that command on the state with the event taken off the host's list
(R45 step 7, 70_reset_and_hazards.md R176). That a value of `2^32` or more is taken by its low 32 bits, and that the host
is a list of events, are the model's (logs 8 and 4). -/
def Obligations.StepRunsDecodedCommand : Prop :=
  ∀ (s : State) (v : Nat) (rest : List HostEvent) (i : Instr),
    s.host.script = .write 0 v :: rest → s.err = .none → decode (BitVec.ofNat 32 v) = .ok i →
      step s = exec i { s with host := { s.host with script := rest } }

/-- On a write of `cmd` to `CMD` the block does the first that applies (30_encoding.md R45): it refuses while faulted (1);
a word that fits no row of the opcode map (2, 3) or a command with a word index out of range or aliased destinations (4, 5)
is ILLEGAL; a zero divisor is DIV0 (6); else the command is executed, and it raises nothing (7). That a value of `2^32` or
more is taken by its low 32 bits, and that the host is a list of events, are the model's (logs 8 and 4). -/
def Obligations.CmdWriteDoesFirstCheckThatApplies : Prop :=
  ∀ (s s' : State) (v : Nat) (cmd : Cmd) (rest : List HostEvent),
    s.host.script = .write 0 v :: rest → s' = { s with host := { s.host with script := rest } } →
    cmd = BitVec.ofNat 32 v →
    (s.err ≠ .none → step s = .next s') ∧
    (s.err = .none → (∀ row ∈ opcodeTable, cmd &&& row.mask ≠ row.pattern) →
      step s = .next { s' with err := .illegal, ecmd := cmd }) ∧
    ∀ i, s.err = .none → decode cmd = .ok i →
      (¬ i.wellFormed s.par.n → step s = .next { s' with err := .illegal, ecmd := cmd }) ∧
      (i.wellFormed s.par.n → zeroDivisor i s → step s = .next { s' with err := .div0, ecmd := cmd }) ∧
      (i.wellFormed s.par.n → ¬ zeroDivisor i s →
        step s = exec i s' ∧ ∃ t, exec i s' = .next t ∧ t.err = .none)

/-- While `STATUS.ERR` is not 0 every write to `CMD` changes nothing, whatever the word; reads of the nine ports and
writes to `DIN0` and `DIN1` work as usual (60_exceptions.md R154). -/
def Obligations.FaultedBlockRefusesCommands : Prop :=
  ∀ (s : State) (e : HostEvent) (rest : List HostEvent), s.err ≠ .none → s.host.script = e :: rest →
    (∀ v, e = .write 0 v → step s = .next { s with host := { s.host with script := rest } }) ∧
    (∀ v, e = .write 4 v →
      step s = .next { s with din0 := v % 2 ^ s.par.w, host := { s.host with script := rest } }) ∧
    (∀ v, e = .write 5 v →
      step s = .next { s with din1 := v % 2 ^ s.par.w, host := { s.host with script := rest } }) ∧
    (∀ p x, e = .read p → s.portValue p = some x →
      step s = .next { s with host := ⟨rest, (p, x) :: s.host.seen⟩ })

/-- What each of the nine ports reads as (20_memory.md R31, host read column): a read changes no state of the block and
gives the host the value. -/
def Obligations.PortReadsFollowTable : Prop :=
  ∀ (s : State) (p : Nat) (rest : List HostEvent), s.host.script = .read p :: rest → p ≤ 8 →
    ∃ x, step s = .next { s with host := ⟨rest, (p, x) :: s.host.seen⟩ } ∧
      (p = 0 → x = 0) ∧
      (p = 1 → x = match s.err with | .none => 0 | .illegal => 1 | .div0 => 2) ∧
      (p = 2 → x = (if s.flags.cy then 8 else 0) + (if s.flags.lt then 4 else 0)
        + (if s.flags.eq then 2 else 0) + (if s.flags.t then 1 else 0)) ∧
      (p = 3 → x = s.sr.toNat) ∧ (p = 4 → x = s.din0) ∧ (p = 5 → x = s.din1) ∧
      (p = 6 → x = s.dout0) ∧ (p = 7 → x = s.dout1) ∧ (p = 8 → x = s.ecmd.toNat)

/-- What a write to each port but `CMD` does (20_memory.md R31, host write column): `DIN0` and `DIN1` take the value
truncated to `W` bits, and a write to a read-only port is ignored. -/
def Obligations.PortWritesFollowTable : Prop :=
  ∀ (s : State) (p v : Nat) (rest : List HostEvent), s.host.script = .write p v :: rest → 1 ≤ p → p ≤ 8 →
    (p = 4 → step s = .next { s with din0 := v % 2 ^ s.par.w, host := { s.host with script := rest } }) ∧
    (p = 5 → step s = .next { s with din1 := v % 2 ^ s.par.w, host := { s.host with script := rest } }) ∧
    (p ≠ 4 → p ≠ 5 → step s = .next { s with host := { s.host with script := rest } })

/-- Every command ends in a next state, and so does every step but one that accesses a port that does not exist, which is
refused by name; with nothing pending a step changes nothing (70_reset_and_hazards.md R177, 60_exceptions.md R161,
93_implementation_defined.md U13). -/
def Obligations.EveryCommandEnds : Prop :=
  (∀ (i : Instr) (s : State), ∃ t, exec i s = .next t) ∧
  (∀ s : State, s.host.script = [] → step s = .next s) ∧
  (∀ s : State, (∃ t, step s = .next t) ∨
    ∃ k rest, 8 < k ∧ step s = .refused (.noSuchPort k) ∧
      (s.host.script = .read k :: rest ∨ ∃ v, s.host.script = .write k v :: rest))

/-- After a reset, which the platform may apply to any state, every scalar is 0 and the 19 multi-word registers hold
whatever they came up with (10_state.md R23). -/
def Obligations.ResetLeavesScalarsZero : Prop :=
  ∀ (s : State) (c : ResetContent) (rest : List HostEvent), s.host.script = .reset c :: rest →
    ∃ t, step s = .next t ∧ t.mkWidth = 0 ∧ t.sr = 0 ∧ t.flags = ⟨false, false, false, false⟩ ∧ t.err = .none ∧
      t.ecmd = 0 ∧ t.din0 = 0 ∧ t.din1 = 0 ∧ t.dout0 = 0 ∧ t.dout1 = 0 ∧
      (∀ j : Reg, c.r[j.val] < 2 ^ s.par.b → t.reg j = c.r[j.val]) ∧
      (c.mod < 2 ^ s.par.b → t.mod = c.mod) ∧ (c.mn < 2 ^ s.par.b → t.mn = c.mn) ∧
      (c.mninv < 2 ^ s.par.b → t.mninv = c.mninv) ∧
      t.par = s.par ∧ t.host = { s.host with script := rest }

/-- The invariant holds after reset: at the model's `State.reset` (whose build and contents are the model's choice,
logs 1 and 2) and for every build and every content. -/
def Obligations.ResetMeetsInv : Prop :=
  Inv State.reset ∧ ∀ (p : Params) (c : ResetContent) (h : HostSide), p.ok → Inv (State.resetAs p c h)

/-- Every step keeps the invariant, from every state that has it. -/
def Obligations.StepKeepsInv : Prop := ∀ s t : State, Inv s → step s = .next t → Inv t

/-- A command that raises a fault records the code and the word that was written to `CMD`, and changes nothing else,
whether the word is no command or a command that fails a check (60_exceptions.md R152). -/
def Obligations.FaultRecordsAndChangesNothingElse : Prop :=
  ∀ (cmd : Cmd) (s t : State), s.err = .none → writeCmd cmd s = .next t → t.err ≠ .none →
    (t.err = .illegal ∨ t.err = .div0) ∧ t = { s with err := t.err, ecmd := cmd }

/-- A decoded command raises ILLEGAL exactly when its word index is out of range or its two destinations alias, whatever
its divisor is (60_exceptions.md R151, R157, 30_encoding.md R48). -/
def Obligations.IllegalExactlyWhenIllFormed : Prop :=
  ∀ (i : Instr) (s t : State), s.err = .none → exec i s = .next t →
    (t.err = .illegal ↔
      (∃ r imm, (i = .ldw r imm ∨ i = .stw r imm) ∧ s.par.n ≤ imm.toNat) ∨ (∃ rd ra rb, i = .mulx rd ra rb rd) ∨
      (∃ ra rb, i = .div ra ra rb) ∨ ∃ ra rb rc, i = .divx ra ra rb rc)

/-- A command raises DIV0 exactly when it is well formed and its divisor is 0, in the cases of 60_exceptions.md R153, and
before any write. -/
def Obligations.DivZeroExactlyWhenDivisorZero : Prop :=
  ∀ (i : Instr) (s t : State), s.err = .none → exec i s = .next t →
    (t.err = .div0 ↔ i.wellFormed s.par.n ∧ zeroDivisor i s) ∧ (t.err = .div0 → RecordsFault s t .div0 i)

/-- A fault lasts until reset: over any run with no reset the record and the whole block but `DIN0` and `DIN1` stay as the
faulting command left them; a reset clears the record and gives up the multi-word registers for whatever content it
brings (60_exceptions.md R155). That a content of `2^B` or more is reduced modulo `2^B` is the model's (log 10). -/
def Obligations.OnlyResetEndsAFault : Prop :=
  (∀ (k : Nat) (s t : State), s.err ≠ .none → NoReset s → run k s = .next t →
    t = { s with host := t.host, din0 := t.din0, din1 := t.din1 }) ∧
  ∀ (s : State) (c : ResetContent) (rest : List HostEvent), s.host.script = .reset c :: rest →
    ∃ t, step s = .next t ∧ t.err = .none ∧ t.ecmd = 0 ∧ (∀ j : Reg, t.reg j = c.r[j.val] % 2 ^ s.par.b) ∧
      t.mod = c.mod % 2 ^ s.par.b ∧ t.mn = c.mn % 2 ^ s.par.b ∧ t.mninv = c.mninv % 2 ^ s.par.b

/-- A command writes only what its row of the access table gives it: every other register, context, port, flag bit and
`SR` stays, and so do the build, the host's side and, unless the command faults, the fault record (10_state.md R24). -/
def Obligations.CommandWritesOnlyItsRow : Prop :=
  ∀ (i : Instr) (s t : State), exec i s = .next t →
    t.par = s.par ∧ t.host = s.host ∧ (∀ q : Part, q ∉ writes i → q.Agree t s) ∧
    (i.wellFormed s.par.n → ¬ zeroDivisor i s → t.err = s.err ∧ t.ecmd = s.ecmd)

/-- A command's results depend only on what its row of the access table lets it read: two runs that agree there fault
alike or write alike (10_state.md R24). -/
def Obligations.CommandReadsOnlyItsRow : Prop :=
  ∀ (i : Instr) (s u t v : State), s.par = u.par → s.err = .none → u.err = .none →
    (∀ q ∈ reads i, q.Agree s u) → exec i s = .next t → exec i u = .next v →
      t.err = v.err ∧ (t.err = .none → ∀ q ∈ writes i, q.Agree t v)

/-- The host cannot read an operand register or a context: two blocks that differ only there give every run of port reads
and data-port writes the same values (20_memory.md R31, last sentence). -/
def Obligations.PortsHideRegisters : Prop :=
  ∀ (k : Nat) (s u t : State),
    (∀ e ∈ s.host.script, (∃ p, e = .read p) ∨ ∃ p v, e = .write p v ∧ p ≠ 0) →
    u = { s with r := u.r, mod := u.mod, mn := u.mn, mninv := u.mninv, mkWidth := u.mkWidth } →
    run k s = .next t → ∃ v, run k u = .next v ∧ v.host = t.host

/-! ### Move and convert -/

/-- `MOV` copies a register; nothing else changes (40_move_convert.md R60). -/
def Obligations.MovCopiesRegister : Prop :=
  ∀ (s : State) (rd ra : Reg), ∃ t, exec (.mov rd ra) s = .next t ∧ WritesReg s t rd (s.reg ra)

/-- `SETW` zero-extends `DIN0`; `SETDW` takes `{DIN1, DIN0}`, dropping `DIN1` when `N = 1` (R61, R62). -/
def Obligations.SetCommandsLoadDataPorts : Prop :=
  ∀ (s : State) (rd : Reg), Inv s →
    (∃ t, exec (.setw rd) s = .next t ∧ WritesReg s t rd s.din0 ∧ digit s.par (t.reg rd) 0 = s.din0 ∧
      ∀ j, 1 ≤ j → digit s.par (t.reg rd) j = 0) ∧
    ∃ t, exec (.setdw rd) s = .next t ∧ WritesReg s t rd ((s.din1 * 2 ^ s.par.w + s.din0) % 2 ^ s.par.b) ∧
      digit s.par (t.reg rd) 0 = s.din0 ∧ (2 ≤ s.par.n → digit s.par (t.reg rd) 1 = s.din1) ∧
      (s.par.n = 1 → t.reg rd = s.din0) ∧ ∀ j, 2 ≤ j → digit s.par (t.reg rd) j = 0

/-- `GETW`, `GETDW` and `STW` put words of a register into the data ports and change nothing else; `STW` of a word that
does not exist is ILLEGAL (R63, R64, R66). -/
def Obligations.GetCommandsFillDataPorts : Prop :=
  ∀ (s : State) (ra : Reg) (imm : Imm),
    exec (.getw ra) s = .next { s with dout0 := s.reg ra % 2 ^ s.par.w } ∧
    exec (.getdw ra) s = .next { s with
      dout0 := s.reg ra % 2 ^ s.par.w, dout1 := s.reg ra / 2 ^ s.par.w % 2 ^ s.par.w } ∧
    (imm.toNat < s.par.n →
      exec (.stw ra imm) s = .next { s with dout0 := s.reg ra / 2 ^ (s.par.w * imm.toNat) % 2 ^ s.par.w }) ∧
    (s.par.n ≤ imm.toNat →
      exec (.stw ra imm) s = .next { s with err := .illegal, ecmd := encode (.stw ra imm) })

/-- `LDW` replaces one word of a register by `DIN0` and keeps the others; a word that does not exist is ILLEGAL (R65). -/
def Obligations.LdwReplacesOneWord : Prop :=
  ∀ (s : State) (rx : Reg) (imm : Imm), Inv s →
    (imm.toNat < s.par.n → ∃ t, exec (.ldw rx imm) s = .next t ∧
      WritesReg s t rx (s.reg rx - digit s.par (s.reg rx) imm.toNat * 2 ^ (s.par.w * imm.toNat)
        + s.din0 * 2 ^ (s.par.w * imm.toNat)) ∧
      t.reg rx < 2 ^ s.par.b ∧ digit s.par (t.reg rx) imm.toNat = s.din0 ∧
      ∀ j, j ≠ imm.toNat → digit s.par (t.reg rx) j = digit s.par (s.reg rx) j) ∧
    (s.par.n ≤ imm.toNat → exec (.ldw rx imm) s = .next { s with err := .illegal, ecmd := encode (.ldw rx imm) })

/-! ### Tracker and tests -/

/-- `ISZERO`, `ISODD` and `ISEVEN` write `T` and nothing else (41_tracker_tests.md R70, R71, R72). -/
def Obligations.TestsWriteFlagT : Prop :=
  ∀ (s : State) (ra : Reg),
    exec (.iszero ra) s = .next { s with flags := { s.flags with t := decide (s.reg ra = 0) } } ∧
    exec (.isodd ra) s = .next { s with flags := { s.flags with t := (s.reg ra).testBit 0 } } ∧
    exec (.iseven ra) s = .next { s with flags := { s.flags with t := !(s.reg ra).testBit 0 } }

/-- `GETBIT` writes bit `imm` of the value to `T`, 0 at and above `B`, and nothing else (R75). -/
def Obligations.GetbitReadsBit : Prop :=
  ∀ (s : State) (ra : Reg) (imm : Imm), Inv s →
    exec (.getbit ra imm) s = .next { s with flags := { s.flags with t := (s.reg ra).testBit imm.toNat } } ∧
    (s.par.b ≤ imm.toNat → (s.reg ra).testBit imm.toNat = false)

/-- `ORDER` writes one plus the index of the highest nonzero word to `SR`, 0 for zero, and nothing else (R73). -/
def Obligations.OrderFindsHighestWord : Prop :=
  ∀ (s : State) (ra : Reg), Inv s → ∃ o : Nat,
    exec (.order ra) s = .next { s with sr := BitVec.ofNat 32 o } ∧ o ≤ s.par.n ∧ o < 2 ^ 32 ∧
    (s.reg ra = 0 → o = 0) ∧ (s.reg ra ≠ 0 → 1 ≤ o ∧ digit s.par (s.reg ra) (o - 1) ≠ 0) ∧
    ∀ j, o ≤ j → digit s.par (s.reg ra) j = 0

/-- `BITLEN` writes one plus the index of the highest set bit to `SR`, 0 for zero, and nothing else; it is `(o-1)*W` plus
the bit length of the top word (R74). -/
def Obligations.BitlenFindsHighestBit : Prop :=
  ∀ (s : State) (ra : Reg), Inv s → ∃ b : Nat,
    exec (.bitlen ra) s = .next { s with sr := BitVec.ofNat 32 b } ∧ b ≤ s.par.b ∧ b < 2 ^ 32 ∧
    (s.reg ra = 0 → b = 0) ∧ (s.reg ra ≠ 0 → 1 ≤ b ∧ (s.reg ra).testBit (b - 1) = true) ∧
    (∀ i, b ≤ i → (s.reg ra).testBit i = false) ∧
    ∀ o top, s.reg ra ≠ 0 → o = order s.par (s.reg ra) → top = digit s.par (s.reg ra) (o - 1) →
      b = (o - 1) * s.par.w + (Nat.log2 top + 1)

/-- The order is the bit length in words, rounded up, and each bounds the value by its powers; `B - bitlen` bits and
`N - order` words lead as zeros, no more (R77). -/
def Obligations.OrderAndBitlenRelate : Prop :=
  ∀ (s : State) (ra : Reg), Inv s → ∃ t u, exec (.order ra) s = .next t ∧ exec (.bitlen ra) s = .next u ∧
    t.sr.toNat = (u.sr.toNat + s.par.w - 1) / s.par.w ∧
    (s.reg ra = 0 ↔ t.sr.toNat = 0) ∧ (s.reg ra = 0 ↔ u.sr.toNat = 0) ∧
    (s.reg ra ≠ 0 → 2 ^ (u.sr.toNat - 1) ≤ s.reg ra ∧ s.reg ra < 2 ^ u.sr.toNat ∧
      base s.par ^ (t.sr.toNat - 1) ≤ s.reg ra ∧ s.reg ra < base s.par ^ t.sr.toNat) ∧
    (∀ i, u.sr.toNat ≤ i → i < s.par.b → (s.reg ra).testBit i = false) ∧
    (s.reg ra ≠ 0 → (s.reg ra).testBit (u.sr.toNat - 1) = true) ∧
    (∀ j, t.sr.toNat ≤ j → j < s.par.n → digit s.par (s.reg ra) j = 0) ∧
    (s.reg ra ≠ 0 → digit s.par (s.reg ra) (t.sr.toNat - 1) ≠ 0)

/-- `CMP` compares the unsigned values, writes `EQ` and `LT` and nothing else, and the document's word-by-word comparison
gives the same answer (R76). -/
def Obligations.CmpComparesValues : Prop :=
  ∀ (s : State) (ra rb : Reg), Inv s →
    exec (.cmp ra rb) s = .next { s with
      flags := { s.flags with eq := decide (s.reg ra = s.reg rb), lt := decide (s.reg ra < s.reg rb) } } ∧
    cmpWords s.par (s.reg ra) (s.reg rb) = compare (s.reg ra) (s.reg rb)

/-! ### Add, subtract, multiply -/

/-- `ADD`: the word-by-word adder leaves the sum modulo `2^B`, and `CY` is the carry out; nothing else changes
(42_addsub.md R80). -/
def Obligations.AddWrapsWithCarry : Prop :=
  ∀ (s : State) (rd ra rb : Reg), Inv s → ∃ t, exec (.add rd ra rb) s = .next t ∧
    WritesRegAndCY s t rd ((s.reg ra + s.reg rb) % 2 ^ s.par.b) (decide ((s.reg ra + s.reg rb) / 2 ^ s.par.b = 1)) ∧
    (s.reg ra + s.reg rb) / 2 ^ s.par.b ≤ 1

/-- `SUB`: the word-by-word subtractor leaves the difference modulo `2^B`, and `CY` is the borrow out; nothing else changes
(R81). -/
def Obligations.SubWrapsWithBorrow : Prop :=
  ∀ (s : State) (rd ra rb : Reg), Inv s → ∃ t, exec (.sub rd ra rb) s = .next t ∧
    WritesRegAndCY s t rd (if s.reg rb ≤ s.reg ra then s.reg ra - s.reg rb else 2 ^ s.par.b + s.reg ra - s.reg rb)
      (decide (s.reg ra < s.reg rb))

/-- The laws of the adder and the subtractor (R82): subtracting what was added gives the value back though the sum
wrapped; 0 is neutral; addition is commutative and associative; subtracting is adding the complement. -/
def Obligations.AdderAndSubtractorLaws : Prop :=
  ∀ (p : Params) (a b c : Nat), a < 2 ^ p.b → b < 2 ^ p.b → c < 2 ^ p.b →
    (subUnit p (addUnit p a b).1 b).1 = a ∧ (addUnit p a 0).1 = a ∧
    (addUnit p a b).1 = (addUnit p b a).1 ∧
    (addUnit p (addUnit p a b).1 c).1 = (addUnit p a (addUnit p b c).1).1 ∧
    (b ≠ 0 → (subUnit p a b).1 = (addUnit p a (2 ^ p.b - b)).1)

/-- `MUL`: the schoolbook multiplier keeps the low `B` bits of the product; nothing else changes (43_multiply.md R85). -/
def Obligations.MulKeepsLowBits : Prop :=
  ∀ (s : State) (rd ra rb : Reg), ∃ t, exec (.mul rd ra rb) s = .next t ∧
    WritesReg s t rd (s.reg ra * s.reg rb % 2 ^ s.par.b)

/-- `MULX`: the low half of the exact product to `rd`, the high half to `rc`; nothing else changes; equal destinations
are ILLEGAL (R86). -/
def Obligations.MulxKeepsWholeProduct : Prop :=
  ∀ (s : State) (rd ra rb rc : Reg), Inv s → ∃ t, exec (.mulx rd ra rb rc) s = .next t ∧
    (rd = rc → RecordsFault s t .illegal (.mulx rd ra rb rc)) ∧
    (rd ≠ rc → WritesTwoRegs s t rd (s.reg ra * s.reg rb % 2 ^ s.par.b) rc (s.reg ra * s.reg rb / 2 ^ s.par.b) ∧
      t.reg rc * 2 ^ s.par.b + t.reg rd = s.reg ra * s.reg rb)

/-- The laws of the multiplier (R88): 1 is neutral; `MUL` is commutative, associative and distributive over `ADD` modulo
`2^B`; its result is the low half of `MULX`'s. -/
def Obligations.MultiplierLaws : Prop :=
  ∀ (p : Params) (a b c : Nat), a < 2 ^ p.b → b < 2 ^ p.b → c < 2 ^ p.b →
    mulLow p a 1 = a ∧ mulLow p a b = mulLow p b a ∧ mulLow p (mulLow p a b) c = mulLow p a (mulLow p b c) ∧
    mulLow p a (addUnit p b c).1 = (addUnit p (mulLow p a b) (mulLow p a c)).1 ∧
    mulLow p a b = mulWide p a b % 2 ^ p.b

/-! ### Divide -/

/-- `DIV`: the quotient to `rd`, the remainder to the receiver, with `q*d + r = a` and `r < d`; nothing else changes.
Equal destinations are ILLEGAL, else a zero divisor is DIV0 (44_divide.md R90). -/
def Obligations.DivLeavesQuotientAndRemainder : Prop :=
  ∀ (s : State) (rd ra rb : Reg), ∃ t, exec (.div rd ra rb) s = .next t ∧
    (rd = ra → RecordsFault s t .illegal (.div rd ra rb)) ∧
    (rd ≠ ra → s.reg rb = 0 → RecordsFault s t .div0 (.div rd ra rb)) ∧
    (rd ≠ ra → s.reg rb ≠ 0 →
      WritesTwoRegs s t ra (s.reg ra % s.reg rb) rd (s.reg ra / s.reg rb) ∧
      t.reg rd * s.reg rb + t.reg ra = s.reg ra ∧ t.reg ra < s.reg rb)

/-- `DIVX`: the remainder of the double-width dividend is exact and goes to the receiver, the low `B` bits of the quotient
to `rd`; nothing else changes; exact when the high half is below the divisor, and `DIV`'s results when it is 0 (R91). -/
def Obligations.DivxDividesDoubleWidth : Prop :=
  ∀ (s : State) (rd ra rb rc : Reg), Inv s → ∃ t, exec (.divx rd ra rb rc) s = .next t ∧
    (rd = ra → RecordsFault s t .illegal (.divx rd ra rb rc)) ∧
    (rd ≠ ra → s.reg rb = 0 → RecordsFault s t .div0 (.divx rd ra rb rc)) ∧
    (rd ≠ ra → s.reg rb ≠ 0 → ∀ dividend, dividend = s.reg rc * 2 ^ s.par.b + s.reg ra →
      WritesTwoRegs s t ra (dividend % s.reg rb) rd (dividend / s.reg rb % 2 ^ s.par.b) ∧
      (s.reg rc < s.reg rb → t.reg rd * s.reg rb + t.reg ra = dividend) ∧
      (s.reg rc = 0 → t.reg ra = s.reg ra % s.reg rb ∧ t.reg rd = s.reg ra / s.reg rb))

/-- The long-division engine gives the quotient and the remainder for EVERY digit estimate R93 admits, within `base` turns
at each of at most `2N` positions (R92 to R94). -/
def Obligations.LongDivisionEngineIsExact : Prop :=
  ∀ (p : Params) (est : Nat → Nat → Nat → Nat) (fuel A D : Nat),
    p.ok → A < 2 ^ p.b * 2 ^ p.b → D < 2 ^ p.b → D ≠ 0 → Admissible p est D → 2 * p.n * base p ≤ fuel →
      longDiv p est fuel A D = some (A / D, A % D)

/-- The estimate `max(1, top div (bottom + 1))` is admissible for every divisor, and it is one word (R93). -/
def Obligations.BottomPlusOneIsAdmissible : Prop :=
  ∀ (p : Params) (D : Nat), p.ok → D < 2 ^ p.b → D ≠ 0 →
    Admissible p (estimateBottomPlusOne p) D ∧
    ∀ A shf, D ≤ A / base p ^ shf → A < D * base p ^ (shf + 1) → estimateBottomPlusOne p A D shf < base p

/-! ### Shift -/

/-- `SHL`: the word-and-bit shifter multiplies by `2^imm` and keeps the low `B` bits, so a count of `B` or more gives 0;
nothing else changes (45_shift.md R100). -/
def Obligations.ShlMultipliesByPower : Prop :=
  ∀ (s : State) (rx ra : Reg) (imm : Imm), Inv s → ∃ t, exec (.shl rx ra imm) s = .next t ∧
    WritesReg s t rx (s.reg ra * 2 ^ imm.toNat % 2 ^ s.par.b) ∧ (s.par.b ≤ imm.toNat → t.reg rx = 0)

/-- `SHR`: the word-and-bit shifter divides by `2^imm`, zeros entering at the top, so a count of `B` or more gives 0;
nothing else changes (R101). -/
def Obligations.ShrDividesByPower : Prop :=
  ∀ (s : State) (rx ra : Reg) (imm : Imm), Inv s → ∃ t, exec (.shr rx ra imm) s = .next t ∧
    WritesReg s t rx (s.reg ra / 2 ^ imm.toNat) ∧ (s.par.b ≤ imm.toNat → t.reg rx = 0)

/-- The laws of the shifter (R102): left then right gives the value back exactly when no set bit is lost; right then left
clears the low bits; the left shift is a `MUL` by a power of two. -/
def Obligations.ShiftLaws : Prop :=
  ∀ (p : Params) (x k : Nat), p.ok → x < 2 ^ p.b →
    (shrUnit p (shlUnit p x k) k = x ↔ bitlen p x + k ≤ p.b ∨ x = 0) ∧
    shlUnit p (shrUnit p x k) k = x - x % 2 ^ k ∧
    (k < p.b → shlUnit p x k = mulLow p x (2 ^ k)) ∧ shrUnit p x k = x / 2 ^ k

/-! ### Modulo -/

/-- `SETMOD` and `MSETUP` copy registers and the immediate into the contexts, check nothing and change nothing else
(46_modular.md R105, 47_montgomery.md R115). -/
def Obligations.SetupCommandsLoadContexts : Prop :=
  ∀ (s : State) (rx ra : Reg) (imm : Imm),
    exec (.setmod ra) s = .next { s with mod := s.reg ra } ∧
    exec (.msetup rx ra imm) s = .next { s with mn := s.reg ra, mninv := s.reg rx, mkWidth := imm }

/-- `MODNORM`, `MODADD` and `MODMUL` leave the exact residue and change nothing else; with `MOD = 0` they raise DIV0
(46_modular.md R106, R107, R109). -/
def Obligations.ModuloCommandsReduceExactly : Prop :=
  ∀ (s : State) (rd ra rb : Reg),
    (s.mod ≠ 0 →
      (∃ t, exec (.modnorm ra) s = .next t ∧ WritesReg s t ra (s.reg ra % s.mod)) ∧
      (∃ t, exec (.modadd rd ra rb) s = .next t ∧ WritesReg s t rd ((s.reg ra + s.reg rb) % s.mod)) ∧
      ∃ t, exec (.modmul rd ra rb) s = .next t ∧ WritesReg s t rd (s.reg ra * s.reg rb % s.mod)) ∧
    (s.mod = 0 →
      (∃ t, exec (.modnorm ra) s = .next t ∧ RecordsFault s t .div0 (.modnorm ra)) ∧
      (∃ t, exec (.modadd rd ra rb) s = .next t ∧ RecordsFault s t .div0 (.modadd rd ra rb)) ∧
      ∃ t, exec (.modmul rd ra rb) s = .next t ∧ RecordsFault s t .div0 (.modmul rd ra rb))

/-- `MODSUB` follows the document's two cases: the plain difference, or `m - y + x` modulo `2^B`, reduced or not; nothing
else changes; with `MOD = 0` it raises DIV0 (R108). -/
def Obligations.ModsubFollowsTwoCases : Prop :=
  ∀ (s : State) (rd ra rb : Reg), Inv s → ∃ t, exec (.modsub rd ra rb) s = .next t ∧
    (s.mod = 0 → RecordsFault s t .div0 (.modsub rd ra rb)) ∧
    (s.mod ≠ 0 → WritesReg s t rd (if s.reg rb ≤ s.reg ra then s.reg ra - s.reg rb
      else (((s.mod : Int) - s.reg rb + s.reg ra) % 2 ^ s.par.b).toNat))

/-- The contract for reduced operands: `MODADD`, `MODSUB` and `MODMUL` give the residue of the sum, the difference and the
product, each below the modulus (R112). -/
def Obligations.ReducedOperandsGiveResidues : Prop :=
  ∀ (s : State) (rd ra rb : Reg), Inv s → s.reg ra < s.mod → s.reg rb < s.mod →
    ∃ t u v, exec (.modadd rd ra rb) s = .next t ∧ exec (.modsub rd ra rb) s = .next u ∧
      exec (.modmul rd ra rb) s = .next v ∧
      t.reg rd = (s.reg ra + s.reg rb) % s.mod ∧ (u.reg rd : Int) = ((s.reg ra : Int) - s.reg rb) % s.mod ∧
      v.reg rd = s.reg ra * s.reg rb % s.mod ∧ t.reg rd < s.mod ∧ u.reg rd < s.mod ∧ v.reg rd < s.mod

/-- `MODPOW`: square-and-multiply gives the power's residue for every exponent from 1 up, and the unreduced 1 for exponent
0; nothing else changes; with `MOD = 0` it raises DIV0 (R110). -/
def Obligations.ModpowIsModularPower : Prop :=
  ∀ (s : State) (rd ra rb : Reg), Inv s → ∃ t, exec (.modpow rd ra rb) s = .next t ∧
    (s.mod = 0 → RecordsFault s t .div0 (.modpow rd ra rb)) ∧
    (s.mod ≠ 0 → WritesReg s t rd (if s.reg rb = 0 then 1 else s.reg ra ^ s.reg rb % s.mod))

/-- `MODMUL` is `MULX` and then `DIVX` by the modulus, the quotient discarded (R109); from a state without a fault no state
on the way has one (60_exceptions.md R156). -/
def Obligations.ModmulIsMulxThenDivx : Prop :=
  ∀ (s : State) (rd ra rb lo hi q m : Reg), Inv s → Safe s → s.reg m = s.mod → s.mod ≠ 0 →
    lo ≠ hi → q ≠ lo → m ≠ lo → m ≠ hi →
    ∃ t u v, exec (.mulx lo ra rb hi) s = .next t ∧ exec (.divx q lo m hi) t = .next u ∧
      exec (.modmul rd ra rb) s = .next v ∧ v.reg rd = u.reg lo ∧ Safe t ∧ Safe u ∧ Safe v

/-! ### Montgomery -/

/-- `MTOREPR`: the truncating left shift by `k`, then the remainder; nothing else changes; 0 when `k >= B`; with `MN = 0` it
raises DIV0 (47_montgomery.md R116). -/
def Obligations.MtoreprShiftsAndReduces : Prop :=
  ∀ (s : State) (rd ra : Reg), ∃ t, exec (.mtorepr rd ra) s = .next t ∧
    (s.mn = 0 → RecordsFault s t .div0 (.mtorepr rd ra)) ∧
    (s.mn ≠ 0 → WritesReg s t rd (s.reg ra * 2 ^ s.mkWidth.toNat % 2 ^ s.par.b % s.mn) ∧
      (s.par.b ≤ s.mkWidth.toNat → t.reg rd = 0))

/-- `MMUL` leaves what the rule's lines compute, trial subtraction included, below `n`; `MFROMREPR` is the same with second
operand 1; nothing else changes; with `MN = 0` both raise DIV0 (R117, R118). -/
def Obligations.MmulFollowsRedcLines : Prop :=
  ∀ (s : State) (rd ra rb : Reg),
    (∃ t, exec (.mmul rd ra rb) s = .next t ∧
      (s.mn = 0 → RecordsFault s t .div0 (.mmul rd ra rb)) ∧
      (s.mn ≠ 0 → WritesReg s t rd (t.reg rd) ∧ t.reg rd < s.mn ∧
        MontgomeryStep s.par s.mn s.mninv s.mkWidth.toNat (s.reg ra) (s.reg rb) (t.reg rd))) ∧
    ∃ t, exec (.mfromrepr rd ra) s = .next t ∧
      (s.mn = 0 → RecordsFault s t .div0 (.mfromrepr rd ra)) ∧
      (s.mn ≠ 0 → WritesReg s t rd (t.reg rd) ∧ t.reg rd < s.mn ∧
        MontgomeryStep s.par s.mn s.mninv s.mkWidth.toNat (s.reg ra) 1 (t.reg rd))

/-- `MPOW`: square-and-multiply over images from the image of 1, in any context with `MN != 0`; nothing else changes;
exponent 0 gives the image of 1; with `MN = 0` it raises DIV0 (R119). -/
def Obligations.MpowSquaresAndMultiplies : Prop :=
  ∀ (s : State) (rd ra rb : Reg), Inv s → ∃ t, exec (.mpow rd ra rb) s = .next t ∧
    (s.mn = 0 → RecordsFault s t .div0 (.mpow rd ra rb)) ∧
    (s.mn ≠ 0 → WritesReg s t rd (t.reg rd) ∧
      SquareMultiply (mmul s.par s.mn s.mninv s.mkWidth.toNat) (s.reg rb)
        (1 * 2 ^ s.mkWidth.toNat % 2 ^ s.par.b % s.mn) (s.reg ra) (t.reg rd) ∧
      (s.reg rb = 0 → t.reg rd = 2 ^ s.mkWidth.toNat % 2 ^ s.par.b % s.mn))

/-- The Montgomery round trip: in a good context `MFROMREPR` undoes `MTOREPR` for every residue (R121), from a state
without a fault and with none on the way (60_exceptions.md R156). -/
def Obligations.MontgomeryRoundTrip : Prop :=
  ∀ (s : State) (rd re ra : Reg), Inv s → Safe s → GoodContext s → s.reg ra < s.mn →
    ∃ t u, exec (.mtorepr rd ra) s = .next t ∧ exec (.mfromrepr re rd) t = .next u ∧
      t.reg rd = s.reg ra * 2 ^ s.mkWidth.toNat % s.mn ∧ u.reg re = s.reg ra ∧ Safe t ∧ Safe u

/-- In a good context `MMUL` of two residues is `a * b * 2^(-k) mod n`, unless the corner of R122 is hit, in which it is the
residue one above (R121, R122). -/
def Obligations.MmulIsMontgomeryProduct : Prop :=
  ∀ (s : State) (rd ra rb : Reg), Inv s → GoodContext s → s.reg ra < s.mn → s.reg rb < s.mn →
    ∃ t, exec (.mmul rd ra rb) s = .next t ∧ t.reg rd < s.mn ∧
      (¬ Corner s.par s.mkWidth.toNat (s.reg ra) (s.reg rb) →
        t.reg rd * 2 ^ s.mkWidth.toNat % s.mn = s.reg ra * s.reg rb % s.mn) ∧
      (Corner s.par s.mkWidth.toNat (s.reg ra) (s.reg rb) →
        t.reg rd = (s.reg ra * s.reg rb / 2 ^ s.mkWidth.toNat + 1) % s.mn)

/-- In a good context, when no multiplication meets the corner of R122, converting, raising by `MPOW` and converting back
gives the power's residue, the value `MODPOW` gives for the same modulus (R122, 93_implementation_defined.md U6), from a
state without a fault and with none on the way (60_exceptions.md R156). -/
def Obligations.MpowAgreesWithModpow : Prop :=
  ∀ (s : State) (rx ra rb rc rd : Reg), Inv s → Safe s → GoodContext s → s.mod = s.mn → 1 < s.mn → s.reg ra < s.mn →
    rb ≠ rx →
    CornerFree s.par s.mn s.mninv s.mkWidth.toNat (s.reg rb)
      (2 ^ s.mkWidth.toNat % s.mn) (s.reg ra * 2 ^ s.mkWidth.toNat % s.mn) →
    ∃ t u v w, exec (.mtorepr rx ra) s = .next t ∧ exec (.mpow rc rx rb) t = .next u ∧
      exec (.mfromrepr rd rc) u = .next v ∧ exec (.modpow rd ra rb) s = .next w ∧
      v.reg rd = s.reg ra ^ s.reg rb % s.mn ∧ v.reg rd = w.reg rd ∧ Safe t ∧ Safe u ∧ Safe v ∧ Safe w

/-! ### The host's side -/

/-- Running the expansion of `li rd, value` from any state without a fault leaves the value in the register, changes
`DIN0` and nothing else, and meets no fault (30_encoding.md R52, 60_exceptions.md R156). -/
def Obligations.LiLoadsValue : Prop :=
  ∀ (s : State) (rd : Reg) (value : Nat) (rest : List HostEvent),
    Inv s → Safe s → value < 2 ^ s.par.b → s.host.script = liScript s.par rd value ++ rest →
    ∃ t, claimRun (liScript s.par rd value).length s = .next t ∧ WritesReg { s with
      din0 := t.din0, host := { s.host with script := rest } } t rd value ∧ Safe t

/-- When a word is a whole number of bytes, the little-endian byte image of a value is its words' bytes in index order
(20_memory.md R34). -/
def Obligations.ByteImageIsWordsInOrder : Prop :=
  ∀ (p : Params) (v : Nat), 8 ∣ p.w → byteImage p v = (toWords p v).flatMap (wordBytes p)

/-- A fault is the fault outcome of a run that a claim may be made about (60_exceptions.md R156): a run from a faulted
state, of any length, is that outcome; a run that ends in a next state starts and ends without a fault and is the block's
own run; and with no reset pending the block's own run says which of the two it is, and with which record. -/
def Obligations.ClaimRunTakesFaultOutcome : Prop :=
  ∀ (k : Nat) (s : State),
    (s.err = .illegal → claimRun k s = .fault (.illegal s.ecmd)) ∧
    (s.err = .div0 → claimRun k s = .fault (.div0 s.ecmd)) ∧
    ∀ t, (claimRun k s = .next t → Safe s ∧ Safe t ∧ run k s = .next t) ∧
      (NoReset s → run k s = .next t →
        (Safe t → claimRun k s = .next t) ∧
        (t.err = .illegal → claimRun k s = .fault (.illegal t.ecmd)) ∧
        (t.err = .div0 → claimRun k s = .fault (.div0 t.ecmd)))
end

