-- ==== Sys2Proof/Laws/PerInstr.lean ====
section
/-!
SUPPORT. The per-instruction family EncodeFits: the number a command's word spells fits 32 bits, so that no bit of an
encoding is dropped when the word is made.
-/

namespace Sys2Proof.Laws

theorem formatR_lt {op : Nat} (h : op < 256) (rd ra rb rc : Reg) : formatR op rd ra rb rc < 2 ^ 32 := by
  unfold formatR
  omega

theorem formatI_lt {op : Nat} (h : op < 256) (rx ra : Reg) (imm : Imm) : formatI op rx ra imm < 2 ^ 32 := by
  have := imm.isLt
  unfold formatI
  omega

/-- The number of a command's word fits the command word. -/
def EncodeFits.Statement (i : Instr) : Prop := (encode i).toNat = encodeNat i

theorem EncodeFits.of_lt {i : Instr} (h : encodeNat i < 2 ^ 32) : EncodeFits.Statement i := by
  simp only [EncodeFits.Statement, encode, BitVec.toNat_ofNat]
  exact Nat.mod_eq_of_lt h

theorem EncodeFits.mov (rd ra : Reg) : EncodeFits.Statement (.mov rd ra) :=
  EncodeFits.of_lt (formatR_lt (by decide) _ _ _ _)

theorem EncodeFits.setw (rd : Reg) : EncodeFits.Statement (.setw rd) :=
  EncodeFits.of_lt (formatR_lt (by decide) _ _ _ _)

theorem EncodeFits.setdw (rd : Reg) : EncodeFits.Statement (.setdw rd) :=
  EncodeFits.of_lt (formatR_lt (by decide) _ _ _ _)

theorem EncodeFits.getw (ra : Reg) : EncodeFits.Statement (.getw ra) :=
  EncodeFits.of_lt (formatR_lt (by decide) _ _ _ _)

theorem EncodeFits.getdw (ra : Reg) : EncodeFits.Statement (.getdw ra) :=
  EncodeFits.of_lt (formatR_lt (by decide) _ _ _ _)

theorem EncodeFits.ldw (rx : Reg) (imm : Imm) : EncodeFits.Statement (.ldw rx imm) :=
  EncodeFits.of_lt (formatI_lt (by decide) _ _ _)

theorem EncodeFits.stw (ra : Reg) (imm : Imm) : EncodeFits.Statement (.stw ra imm) :=
  EncodeFits.of_lt (formatI_lt (by decide) _ _ _)

theorem EncodeFits.iszero (ra : Reg) : EncodeFits.Statement (.iszero ra) :=
  EncodeFits.of_lt (formatR_lt (by decide) _ _ _ _)

theorem EncodeFits.isodd (ra : Reg) : EncodeFits.Statement (.isodd ra) :=
  EncodeFits.of_lt (formatR_lt (by decide) _ _ _ _)

theorem EncodeFits.iseven (ra : Reg) : EncodeFits.Statement (.iseven ra) :=
  EncodeFits.of_lt (formatR_lt (by decide) _ _ _ _)

theorem EncodeFits.order (ra : Reg) : EncodeFits.Statement (.order ra) :=
  EncodeFits.of_lt (formatR_lt (by decide) _ _ _ _)

theorem EncodeFits.bitlen (ra : Reg) : EncodeFits.Statement (.bitlen ra) :=
  EncodeFits.of_lt (formatR_lt (by decide) _ _ _ _)

theorem EncodeFits.getbit (ra : Reg) (imm : Imm) : EncodeFits.Statement (.getbit ra imm) :=
  EncodeFits.of_lt (formatI_lt (by decide) _ _ _)

theorem EncodeFits.cmp (ra rb : Reg) : EncodeFits.Statement (.cmp ra rb) :=
  EncodeFits.of_lt (formatR_lt (by decide) _ _ _ _)

theorem EncodeFits.add (rd ra rb : Reg) : EncodeFits.Statement (.add rd ra rb) :=
  EncodeFits.of_lt (formatR_lt (by decide) _ _ _ _)

theorem EncodeFits.sub (rd ra rb : Reg) : EncodeFits.Statement (.sub rd ra rb) :=
  EncodeFits.of_lt (formatR_lt (by decide) _ _ _ _)

theorem EncodeFits.mul (rd ra rb : Reg) : EncodeFits.Statement (.mul rd ra rb) :=
  EncodeFits.of_lt (formatR_lt (by decide) _ _ _ _)

theorem EncodeFits.mulx (rd ra rb rc : Reg) : EncodeFits.Statement (.mulx rd ra rb rc) :=
  EncodeFits.of_lt (formatR_lt (by decide) _ _ _ _)

theorem EncodeFits.div (rd ra rb : Reg) : EncodeFits.Statement (.div rd ra rb) :=
  EncodeFits.of_lt (formatR_lt (by decide) _ _ _ _)

theorem EncodeFits.divx (rd ra rb rc : Reg) : EncodeFits.Statement (.divx rd ra rb rc) :=
  EncodeFits.of_lt (formatR_lt (by decide) _ _ _ _)

theorem EncodeFits.shl (rx ra : Reg) (imm : Imm) : EncodeFits.Statement (.shl rx ra imm) :=
  EncodeFits.of_lt (formatI_lt (by decide) _ _ _)

theorem EncodeFits.shr (rx ra : Reg) (imm : Imm) : EncodeFits.Statement (.shr rx ra imm) :=
  EncodeFits.of_lt (formatI_lt (by decide) _ _ _)

theorem EncodeFits.setmod (ra : Reg) : EncodeFits.Statement (.setmod ra) :=
  EncodeFits.of_lt (formatR_lt (by decide) _ _ _ _)

theorem EncodeFits.modnorm (ra : Reg) : EncodeFits.Statement (.modnorm ra) :=
  EncodeFits.of_lt (formatR_lt (by decide) _ _ _ _)

theorem EncodeFits.modadd (rd ra rb : Reg) : EncodeFits.Statement (.modadd rd ra rb) :=
  EncodeFits.of_lt (formatR_lt (by decide) _ _ _ _)

theorem EncodeFits.modsub (rd ra rb : Reg) : EncodeFits.Statement (.modsub rd ra rb) :=
  EncodeFits.of_lt (formatR_lt (by decide) _ _ _ _)

theorem EncodeFits.modmul (rd ra rb : Reg) : EncodeFits.Statement (.modmul rd ra rb) :=
  EncodeFits.of_lt (formatR_lt (by decide) _ _ _ _)

theorem EncodeFits.modpow (rd ra rb : Reg) : EncodeFits.Statement (.modpow rd ra rb) :=
  EncodeFits.of_lt (formatR_lt (by decide) _ _ _ _)

theorem EncodeFits.msetup (rx ra : Reg) (imm : Imm) : EncodeFits.Statement (.msetup rx ra imm) :=
  EncodeFits.of_lt (formatI_lt (by decide) _ _ _)

theorem EncodeFits.mtorepr (rd ra : Reg) : EncodeFits.Statement (.mtorepr rd ra) :=
  EncodeFits.of_lt (formatR_lt (by decide) _ _ _ _)

theorem EncodeFits.mfromrepr (rd ra : Reg) : EncodeFits.Statement (.mfromrepr rd ra) :=
  EncodeFits.of_lt (formatR_lt (by decide) _ _ _ _)

theorem EncodeFits.mmul (rd ra rb : Reg) : EncodeFits.Statement (.mmul rd ra rb) :=
  EncodeFits.of_lt (formatR_lt (by decide) _ _ _ _)

theorem EncodeFits.mpow (rd ra rb : Reg) : EncodeFits.Statement (.mpow rd ra rb) :=
  EncodeFits.of_lt (formatR_lt (by decide) _ _ _ _)

end Sys2Proof.Laws
end

