-- ==== Sys2Proof/Laws/State.lean ====
section
/-!
SUPPORT. One lemma per field per update of State, true by rfl, and the register file's read-after-write laws. No later
proof unfolds a record update.
-/

namespace Sys2Proof.Machine

/-! ### The register file -/

@[simp] theorem State.reg_setReg_self (s : State) (d : Reg) (v : Nat) : (s.setReg d v).reg d = v := by
  simp [State.reg, State.setReg]

theorem State.reg_setReg (s : State) (d j : Reg) (v : Nat) :
    (s.setReg d v).reg j = if j = d then v else s.reg j := by
  rcases eq_or_ne j d with rfl | h
  · simp
  · have hv : d.val ≠ j.val := fun e => h (Fin.ext e.symm)
    simp [State.reg, State.setReg, h, Vector.getElem_set_ne, hv]

@[simp] theorem State.reg_setReg_of_ne (s : State) {d j : Reg} (v : Nat) (h : j ≠ d) :
    (s.setReg d v).reg j = s.reg j := by
  simp [State.reg_setReg, h]

/-- Two states whose 16 registers read alike have the same register file. -/
theorem State.r_eq_of_reg {s u : State} (h : ∀ j, s.reg j = u.reg j) : s.r = u.r := by
  apply Vector.ext
  intro i hi
  exact h ⟨i, hi⟩

/-- A register write changes the register file and nothing else. -/
theorem State.setReg_eq_with (s : State) (d : Reg) (v : Nat) :
    s.setReg d v = { s with r := (s.setReg d v).r } := rfl

/-! ### setReg -/

@[simp] theorem State.setReg_par (s : State) (d : Reg) (v : Nat) : (s.setReg d v).par = s.par := rfl
@[simp] theorem State.setReg_mod (s : State) (d : Reg) (v : Nat) : (s.setReg d v).mod = s.mod := rfl
@[simp] theorem State.setReg_mn (s : State) (d : Reg) (v : Nat) : (s.setReg d v).mn = s.mn := rfl
@[simp] theorem State.setReg_mninv (s : State) (d : Reg) (v : Nat) : (s.setReg d v).mninv = s.mninv := rfl
@[simp] theorem State.setReg_mkWidth (s : State) (d : Reg) (v : Nat) : (s.setReg d v).mkWidth = s.mkWidth := rfl
@[simp] theorem State.setReg_sr (s : State) (d : Reg) (v : Nat) : (s.setReg d v).sr = s.sr := rfl
@[simp] theorem State.setReg_flags (s : State) (d : Reg) (v : Nat) : (s.setReg d v).flags = s.flags := rfl
@[simp] theorem State.setReg_err (s : State) (d : Reg) (v : Nat) : (s.setReg d v).err = s.err := rfl
@[simp] theorem State.setReg_ecmd (s : State) (d : Reg) (v : Nat) : (s.setReg d v).ecmd = s.ecmd := rfl
@[simp] theorem State.setReg_din0 (s : State) (d : Reg) (v : Nat) : (s.setReg d v).din0 = s.din0 := rfl
@[simp] theorem State.setReg_din1 (s : State) (d : Reg) (v : Nat) : (s.setReg d v).din1 = s.din1 := rfl
@[simp] theorem State.setReg_dout0 (s : State) (d : Reg) (v : Nat) : (s.setReg d v).dout0 = s.dout0 := rfl
@[simp] theorem State.setReg_dout1 (s : State) (d : Reg) (v : Nat) : (s.setReg d v).dout1 = s.dout1 := rfl
@[simp] theorem State.setReg_host (s : State) (d : Reg) (v : Nat) : (s.setReg d v).host = s.host := rfl

/-! ### setT -/

@[simp] theorem State.setT_par (s : State) (b : Bool) : (s.setT b).par = s.par := rfl
@[simp] theorem State.setT_r (s : State) (b : Bool) : (s.setT b).r = s.r := rfl
@[simp] theorem State.setT_mod (s : State) (b : Bool) : (s.setT b).mod = s.mod := rfl
@[simp] theorem State.setT_mn (s : State) (b : Bool) : (s.setT b).mn = s.mn := rfl
@[simp] theorem State.setT_mninv (s : State) (b : Bool) : (s.setT b).mninv = s.mninv := rfl
@[simp] theorem State.setT_mkWidth (s : State) (b : Bool) : (s.setT b).mkWidth = s.mkWidth := rfl
@[simp] theorem State.setT_sr (s : State) (b : Bool) : (s.setT b).sr = s.sr := rfl
@[simp] theorem State.setT_err (s : State) (b : Bool) : (s.setT b).err = s.err := rfl
@[simp] theorem State.setT_ecmd (s : State) (b : Bool) : (s.setT b).ecmd = s.ecmd := rfl
@[simp] theorem State.setT_din0 (s : State) (b : Bool) : (s.setT b).din0 = s.din0 := rfl
@[simp] theorem State.setT_din1 (s : State) (b : Bool) : (s.setT b).din1 = s.din1 := rfl
@[simp] theorem State.setT_dout0 (s : State) (b : Bool) : (s.setT b).dout0 = s.dout0 := rfl
@[simp] theorem State.setT_dout1 (s : State) (b : Bool) : (s.setT b).dout1 = s.dout1 := rfl
@[simp] theorem State.setT_host (s : State) (b : Bool) : (s.setT b).host = s.host := rfl
@[simp] theorem State.reg_setT (s : State) (b : Bool) (j : Reg) : (s.setT b).reg j = s.reg j := rfl

/-! ### setCY -/

@[simp] theorem State.setCY_par (s : State) (b : Bool) : (s.setCY b).par = s.par := rfl
@[simp] theorem State.setCY_r (s : State) (b : Bool) : (s.setCY b).r = s.r := rfl
@[simp] theorem State.setCY_mod (s : State) (b : Bool) : (s.setCY b).mod = s.mod := rfl
@[simp] theorem State.setCY_mn (s : State) (b : Bool) : (s.setCY b).mn = s.mn := rfl
@[simp] theorem State.setCY_mninv (s : State) (b : Bool) : (s.setCY b).mninv = s.mninv := rfl
@[simp] theorem State.setCY_mkWidth (s : State) (b : Bool) : (s.setCY b).mkWidth = s.mkWidth := rfl
@[simp] theorem State.setCY_sr (s : State) (b : Bool) : (s.setCY b).sr = s.sr := rfl
@[simp] theorem State.setCY_err (s : State) (b : Bool) : (s.setCY b).err = s.err := rfl
@[simp] theorem State.setCY_ecmd (s : State) (b : Bool) : (s.setCY b).ecmd = s.ecmd := rfl
@[simp] theorem State.setCY_din0 (s : State) (b : Bool) : (s.setCY b).din0 = s.din0 := rfl
@[simp] theorem State.setCY_din1 (s : State) (b : Bool) : (s.setCY b).din1 = s.din1 := rfl
@[simp] theorem State.setCY_dout0 (s : State) (b : Bool) : (s.setCY b).dout0 = s.dout0 := rfl
@[simp] theorem State.setCY_dout1 (s : State) (b : Bool) : (s.setCY b).dout1 = s.dout1 := rfl
@[simp] theorem State.setCY_host (s : State) (b : Bool) : (s.setCY b).host = s.host := rfl
@[simp] theorem State.reg_setCY (s : State) (b : Bool) (j : Reg) : (s.setCY b).reg j = s.reg j := rfl

/-! ### setCmp -/

@[simp] theorem State.setCmp_par (s : State) (a b : Nat) : (s.setCmp a b).par = s.par := rfl
@[simp] theorem State.setCmp_r (s : State) (a b : Nat) : (s.setCmp a b).r = s.r := rfl
@[simp] theorem State.setCmp_mod (s : State) (a b : Nat) : (s.setCmp a b).mod = s.mod := rfl
@[simp] theorem State.setCmp_mn (s : State) (a b : Nat) : (s.setCmp a b).mn = s.mn := rfl
@[simp] theorem State.setCmp_mninv (s : State) (a b : Nat) : (s.setCmp a b).mninv = s.mninv := rfl
@[simp] theorem State.setCmp_mkWidth (s : State) (a b : Nat) : (s.setCmp a b).mkWidth = s.mkWidth := rfl
@[simp] theorem State.setCmp_sr (s : State) (a b : Nat) : (s.setCmp a b).sr = s.sr := rfl
@[simp] theorem State.setCmp_err (s : State) (a b : Nat) : (s.setCmp a b).err = s.err := rfl
@[simp] theorem State.setCmp_ecmd (s : State) (a b : Nat) : (s.setCmp a b).ecmd = s.ecmd := rfl
@[simp] theorem State.setCmp_din0 (s : State) (a b : Nat) : (s.setCmp a b).din0 = s.din0 := rfl
@[simp] theorem State.setCmp_din1 (s : State) (a b : Nat) : (s.setCmp a b).din1 = s.din1 := rfl
@[simp] theorem State.setCmp_dout0 (s : State) (a b : Nat) : (s.setCmp a b).dout0 = s.dout0 := rfl
@[simp] theorem State.setCmp_dout1 (s : State) (a b : Nat) : (s.setCmp a b).dout1 = s.dout1 := rfl
@[simp] theorem State.setCmp_host (s : State) (a b : Nat) : (s.setCmp a b).host = s.host := rfl
@[simp] theorem State.reg_setCmp (s : State) (a b : Nat) (j : Reg) : (s.setCmp a b).reg j = s.reg j := rfl

/-! ### writeDin0 -/

@[simp] theorem State.writeDin0_par (s : State) (v : Nat) : (s.writeDin0 v).par = s.par := rfl
@[simp] theorem State.writeDin0_r (s : State) (v : Nat) : (s.writeDin0 v).r = s.r := rfl
@[simp] theorem State.writeDin0_mod (s : State) (v : Nat) : (s.writeDin0 v).mod = s.mod := rfl
@[simp] theorem State.writeDin0_mn (s : State) (v : Nat) : (s.writeDin0 v).mn = s.mn := rfl
@[simp] theorem State.writeDin0_mninv (s : State) (v : Nat) : (s.writeDin0 v).mninv = s.mninv := rfl
@[simp] theorem State.writeDin0_mkWidth (s : State) (v : Nat) : (s.writeDin0 v).mkWidth = s.mkWidth := rfl
@[simp] theorem State.writeDin0_sr (s : State) (v : Nat) : (s.writeDin0 v).sr = s.sr := rfl
@[simp] theorem State.writeDin0_flags (s : State) (v : Nat) : (s.writeDin0 v).flags = s.flags := rfl
@[simp] theorem State.writeDin0_err (s : State) (v : Nat) : (s.writeDin0 v).err = s.err := rfl
@[simp] theorem State.writeDin0_ecmd (s : State) (v : Nat) : (s.writeDin0 v).ecmd = s.ecmd := rfl
@[simp] theorem State.writeDin0_din1 (s : State) (v : Nat) : (s.writeDin0 v).din1 = s.din1 := rfl
@[simp] theorem State.writeDin0_dout0 (s : State) (v : Nat) : (s.writeDin0 v).dout0 = s.dout0 := rfl
@[simp] theorem State.writeDin0_dout1 (s : State) (v : Nat) : (s.writeDin0 v).dout1 = s.dout1 := rfl
@[simp] theorem State.writeDin0_host (s : State) (v : Nat) : (s.writeDin0 v).host = s.host := rfl
@[simp] theorem State.reg_writeDin0 (s : State) (v : Nat) (j : Reg) : (s.writeDin0 v).reg j = s.reg j := rfl

/-! ### writeDin1 -/

@[simp] theorem State.writeDin1_par (s : State) (v : Nat) : (s.writeDin1 v).par = s.par := rfl
@[simp] theorem State.writeDin1_r (s : State) (v : Nat) : (s.writeDin1 v).r = s.r := rfl
@[simp] theorem State.writeDin1_mod (s : State) (v : Nat) : (s.writeDin1 v).mod = s.mod := rfl
@[simp] theorem State.writeDin1_mn (s : State) (v : Nat) : (s.writeDin1 v).mn = s.mn := rfl
@[simp] theorem State.writeDin1_mninv (s : State) (v : Nat) : (s.writeDin1 v).mninv = s.mninv := rfl
@[simp] theorem State.writeDin1_mkWidth (s : State) (v : Nat) : (s.writeDin1 v).mkWidth = s.mkWidth := rfl
@[simp] theorem State.writeDin1_sr (s : State) (v : Nat) : (s.writeDin1 v).sr = s.sr := rfl
@[simp] theorem State.writeDin1_flags (s : State) (v : Nat) : (s.writeDin1 v).flags = s.flags := rfl
@[simp] theorem State.writeDin1_err (s : State) (v : Nat) : (s.writeDin1 v).err = s.err := rfl
@[simp] theorem State.writeDin1_ecmd (s : State) (v : Nat) : (s.writeDin1 v).ecmd = s.ecmd := rfl
@[simp] theorem State.writeDin1_din0 (s : State) (v : Nat) : (s.writeDin1 v).din0 = s.din0 := rfl
@[simp] theorem State.writeDin1_dout0 (s : State) (v : Nat) : (s.writeDin1 v).dout0 = s.dout0 := rfl
@[simp] theorem State.writeDin1_dout1 (s : State) (v : Nat) : (s.writeDin1 v).dout1 = s.dout1 := rfl
@[simp] theorem State.writeDin1_host (s : State) (v : Nat) : (s.writeDin1 v).host = s.host := rfl
@[simp] theorem State.reg_writeDin1 (s : State) (v : Nat) (j : Reg) : (s.writeDin1 v).reg j = s.reg j := rfl

/-! ### popEvent -/

@[simp] theorem State.popEvent_par (s : State) (rest : List HostEvent) : (s.popEvent rest).par = s.par := rfl
@[simp] theorem State.popEvent_r (s : State) (rest : List HostEvent) : (s.popEvent rest).r = s.r := rfl
@[simp] theorem State.popEvent_mod (s : State) (rest : List HostEvent) : (s.popEvent rest).mod = s.mod := rfl
@[simp] theorem State.popEvent_mn (s : State) (rest : List HostEvent) : (s.popEvent rest).mn = s.mn := rfl
@[simp] theorem State.popEvent_mninv (s : State) (rest : List HostEvent) : (s.popEvent rest).mninv = s.mninv := rfl
@[simp] theorem State.popEvent_mkWidth (s : State) (rest : List HostEvent) : (s.popEvent rest).mkWidth = s.mkWidth := rfl
@[simp] theorem State.popEvent_sr (s : State) (rest : List HostEvent) : (s.popEvent rest).sr = s.sr := rfl
@[simp] theorem State.popEvent_flags (s : State) (rest : List HostEvent) : (s.popEvent rest).flags = s.flags := rfl
@[simp] theorem State.popEvent_err (s : State) (rest : List HostEvent) : (s.popEvent rest).err = s.err := rfl
@[simp] theorem State.popEvent_ecmd (s : State) (rest : List HostEvent) : (s.popEvent rest).ecmd = s.ecmd := rfl
@[simp] theorem State.popEvent_din0 (s : State) (rest : List HostEvent) : (s.popEvent rest).din0 = s.din0 := rfl
@[simp] theorem State.popEvent_din1 (s : State) (rest : List HostEvent) : (s.popEvent rest).din1 = s.din1 := rfl
@[simp] theorem State.popEvent_dout0 (s : State) (rest : List HostEvent) : (s.popEvent rest).dout0 = s.dout0 := rfl
@[simp] theorem State.popEvent_dout1 (s : State) (rest : List HostEvent) : (s.popEvent rest).dout1 = s.dout1 := rfl
@[simp] theorem State.reg_popEvent (s : State) (rest : List HostEvent) (j : Reg) : (s.popEvent rest).reg j = s.reg j := rfl

/-! ### pushEvent -/

@[simp] theorem State.pushEvent_par (s : State) (e : HostEvent) : (s.pushEvent e).par = s.par := rfl
@[simp] theorem State.pushEvent_r (s : State) (e : HostEvent) : (s.pushEvent e).r = s.r := rfl
@[simp] theorem State.pushEvent_mod (s : State) (e : HostEvent) : (s.pushEvent e).mod = s.mod := rfl
@[simp] theorem State.pushEvent_mn (s : State) (e : HostEvent) : (s.pushEvent e).mn = s.mn := rfl
@[simp] theorem State.pushEvent_mninv (s : State) (e : HostEvent) : (s.pushEvent e).mninv = s.mninv := rfl
@[simp] theorem State.pushEvent_mkWidth (s : State) (e : HostEvent) : (s.pushEvent e).mkWidth = s.mkWidth := rfl
@[simp] theorem State.pushEvent_sr (s : State) (e : HostEvent) : (s.pushEvent e).sr = s.sr := rfl
@[simp] theorem State.pushEvent_flags (s : State) (e : HostEvent) : (s.pushEvent e).flags = s.flags := rfl
@[simp] theorem State.pushEvent_err (s : State) (e : HostEvent) : (s.pushEvent e).err = s.err := rfl
@[simp] theorem State.pushEvent_ecmd (s : State) (e : HostEvent) : (s.pushEvent e).ecmd = s.ecmd := rfl
@[simp] theorem State.pushEvent_din0 (s : State) (e : HostEvent) : (s.pushEvent e).din0 = s.din0 := rfl
@[simp] theorem State.pushEvent_din1 (s : State) (e : HostEvent) : (s.pushEvent e).din1 = s.din1 := rfl
@[simp] theorem State.pushEvent_dout0 (s : State) (e : HostEvent) : (s.pushEvent e).dout0 = s.dout0 := rfl
@[simp] theorem State.pushEvent_dout1 (s : State) (e : HostEvent) : (s.pushEvent e).dout1 = s.dout1 := rfl
@[simp] theorem State.reg_pushEvent (s : State) (e : HostEvent) (j : Reg) : (s.pushEvent e).reg j = s.reg j := rfl

/-! ### What the updates write -/

@[simp] theorem State.setT_flags (s : State) (b : Bool) : (s.setT b).flags = { s.flags with t := b } := rfl
@[simp] theorem State.setCY_flags (s : State) (b : Bool) : (s.setCY b).flags = { s.flags with cy := b } := rfl
@[simp] theorem State.setCmp_flags (s : State) (a b : Nat) :
    (s.setCmp a b).flags = { s.flags with eq := decide (a = b), lt := decide (a < b) } := rfl
@[simp] theorem State.writeDin0_din0 (s : State) (v : Nat) : (s.writeDin0 v).din0 = v % base s.par := rfl
@[simp] theorem State.writeDin1_din1 (s : State) (v : Nat) : (s.writeDin1 v).din1 = v % base s.par := rfl
@[simp] theorem State.popEvent_script (s : State) (rest : List HostEvent) :
    (s.popEvent rest).host.script = rest := rfl
@[simp] theorem State.popEvent_seen (s : State) (rest : List HostEvent) :
    (s.popEvent rest).host.seen = s.host.seen := rfl
@[simp] theorem State.pushEvent_script (s : State) (e : HostEvent) :
    (s.pushEvent e).host.script = e :: s.host.script := rfl

/-! ### Reset -/

@[simp] theorem State.resetAs_par (p : Params) (c : ResetContent) (h : HostSide) :
    (State.resetAs p c h).par = p := rfl
@[simp] theorem State.resetAs_err (p : Params) (c : ResetContent) (h : HostSide) :
    (State.resetAs p c h).err = .none := rfl
@[simp] theorem State.resetAs_host (p : Params) (c : ResetContent) (h : HostSide) :
    (State.resetAs p c h).host = h := rfl
theorem State.reg_resetAs (p : Params) (c : ResetContent) (h : HostSide) (j : Reg) :
    (State.resetAs p c h).reg j = c.r[j.val] % 2 ^ p.b := by
  simp [State.reg, State.resetAs]

end Sys2Proof.Machine
end

