-- ==== Sys2Proof/Laws/Step.lean ====
section
/-!
SUPPORT. One lemma per shared operation of the machine: fault entry, the zero-divisor test, port accesses and the step.
-/

namespace Sys2Proof.Machine

@[simp] theorem raise_eq (code : ErrCode) (cmd : Cmd) (s : State) :
    raise code cmd s = .next { s with err := code, ecmd := cmd } := rfl

@[simp] theorem raiseIllegal_eq (i : Instr) (s : State) :
    raiseIllegal i s = .next { s with err := .illegal, ecmd := encode i } := rfl

@[simp] theorem unlessZero_zero (i : Instr) (s go : State) :
    unlessZero 0 i s go = .next { s with err := .div0, ecmd := encode i } := rfl

theorem unlessZero_of_ne {d : Nat} (h : d ≠ 0) (i : Instr) (s go : State) : unlessZero d i s go = .next go := by
  simp [unlessZero, h]

/-- Everything the zero-divisor test can do: the fault record and nothing else, or the command's own effect. -/
theorem unlessZero_cases {d : Nat} {i : Instr} {s go t : State} (h : unlessZero d i s go = .next t) :
    (d = 0 ∧ t = { s with err := .div0, ecmd := encode i }) ∨ (d ≠ 0 ∧ t = go) := by
  by_cases hd : d = 0
  · subst hd
    rw [unlessZero_zero] at h
    exact .inl ⟨rfl, by injection h with h; exact h.symm⟩
  · rw [unlessZero_of_ne hd] at h
    exact .inr ⟨hd, by injection h with h; exact h.symm⟩

/-- With nothing pending a step changes nothing (60_exceptions.md R161). -/
theorem step_of_script_nil {s : State} (h : s.host.script = []) : step s = .next s := by simp [step, h]

/-- A step takes the next event. -/
theorem step_of_script_cons {s : State} {e : HostEvent} {rest : List HostEvent} (h : s.host.script = e :: rest) :
    step s = takeEvent e (s.popEvent rest) := by simp [step, h]

theorem writeCmd_of_faulted {s : State} (h : s.err ≠ .none) (cmd : Cmd) : writeCmd cmd s = .next s := by
  simp [writeCmd, h]

theorem writeCmd_of_decode {s : State} {cmd : Cmd} {i : Instr} (h : s.err = .none) (hd : decode cmd = .ok i) :
    writeCmd cmd s = exec i s := by simp [writeCmd, h, hd]

theorem writeCmd_of_error {s : State} {cmd : Cmd} {e : DecodeError} (h : s.err = .none)
    (hd : decode cmd = .error e) : writeCmd cmd s = .next { s with err := .illegal, ecmd := cmd } := by
  simp [writeCmd, h, hd]

/-- Everything a write to `CMD` can do (30_encoding.md R45): nothing while faulted, the ILLEGAL record for a word that is
no command, or the command's rule. -/
theorem writeCmd_cases {s t : State} {cmd : Cmd} (h : writeCmd cmd s = .next t) :
    (s.err ≠ .none ∧ t = s) ∨
    (s.err = .none ∧ (∃ e, decode cmd = .error e) ∧ t = { s with err := .illegal, ecmd := cmd }) ∨
    (s.err = .none ∧ ∃ i, decode cmd = .ok i ∧ exec i s = .next t) := by
  by_cases he : s.err = .none
  · cases hd : decode cmd with
    | error e =>
      rw [writeCmd_of_error he hd] at h
      exact .inr (.inl ⟨he, ⟨e, rfl⟩, by injection h with h; exact h.symm⟩)
    | ok i => exact .inr (.inr ⟨he, i, rfl, by rwa [writeCmd_of_decode he hd] at h⟩)
  · rw [writeCmd_of_faulted he] at h
    exact .inl ⟨he, by injection h with h; exact h.symm⟩

/-- Everything a port write can do (20_memory.md R31). -/
theorem portWrite_cases {s t : State} {p v : Nat} (h : portWrite p v s = .next t) :
    (p = 0 ∧ writeCmd (BitVec.ofNat 32 v) s = .next t) ∨ (p = 4 ∧ t = s.writeDin0 v) ∨
    (p = 5 ∧ t = s.writeDin1 v) ∨ ((p = 1 ∨ p = 2 ∨ p = 3 ∨ p = 6 ∨ p = 7 ∨ p = 8) ∧ t = s) := by
  unfold portWrite at h
  split at h <;> simp_all

/-- Everything a port read can do (20_memory.md R31): the host notes the value, and nothing else changes. -/
theorem portRead_cases {s t : State} {p : Nat} (h : portRead p s = .next t) :
    ∃ v, s.portValue p = some v ∧ t = { s with host := { s.host with seen := (p, v) :: s.host.seen } } := by
  unfold portRead at h
  split at h
  · rename_i v hv
    exact ⟨v, hv, by injection h with h; exact h.symm⟩
  · cases h

/-- Everything a step can do. -/
theorem step_cases {s t : State} (h : step s = .next t) :
    (s.host.script = [] ∧ t = s) ∨
    ∃ e rest, s.host.script = e :: rest ∧ takeEvent e (s.popEvent rest) = .next t := by
  cases hs : s.host.script with
  | nil =>
    rw [step_of_script_nil hs] at h
    exact .inl ⟨rfl, by injection h with h; exact h.symm⟩
  | cons e rest =>
    rw [step_of_script_cons hs] at h
    exact .inr ⟨e, rest, rfl, h⟩

theorem State.settled_of_safe {s : State} (h : Safe s) : s.settled = .next s := by
  simp only [Safe] at h
  simp [State.settled, h]

theorem State.settled_of_illegal {s : State} (h : s.err = .illegal) : s.settled = .fault (.illegal s.ecmd) := by
  simp [State.settled, h]

theorem State.settled_of_div0 {s : State} (h : s.err = .div0) : s.settled = .fault (.div0 s.ecmd) := by
  simp [State.settled, h]

/-- A run of no step is its state, settled. -/
@[simp] theorem claimRun_zero (s : State) : claimRun 0 s = s.settled := rfl

/-- A run goes on from a state that is not faulted to the next one. -/
theorem claimRun_succ_of_step {s t : State} (h : Safe s) (hs : step s = .next t) (k : Nat) :
    claimRun (k + 1) s = claimRun k t := by
  simp only [Safe] at h
  simp [claimRun, h, hs]

/-- A run that ends in a next state took a step from a state that is not faulted and ran on from there. -/
theorem claimRun_succ_cases {k : Nat} {s u : State} (h : claimRun (k + 1) s = .next u) :
    Safe s ∧ ∃ t, step s = .next t ∧ claimRun k t = .next u := by
  by_cases he : s.err = .none
  · cases hs : step s with
    | next t => exact ⟨he, t, rfl, by rwa [claimRun_succ_of_step he hs] at h⟩
    | fault e => simp [claimRun, he, hs] at h
    | refused e => simp [claimRun, he, hs] at h
  · cases hc : s.err <;> simp_all [claimRun, State.settled]

end Sys2Proof.Machine
end

