-- ==== Sys2Proof/Laws/Words.lean ====
section
/-!
SUPPORT. Words and values: a value below `2^B` is its words, and its words are below `base`. Every lemma about a unit
rests on these.
-/

namespace Sys2Proof.Machine

@[simp] theorem base_pos (p : Params) : 0 < base p := Nat.two_pow_pos _

@[simp] theorem limit_pos (p : Params) : 0 < limit p := Nat.two_pow_pos _

theorem limit_eq_base_pow (p : Params) : limit p = base p ^ p.n := by
  simp [limit, base, Params.b, pow_mul]

theorem digit_eq (p : Params) (v j : Nat) : digit p v j = v / base p ^ j % base p := by
  simp [digit, base, pow_mul]

theorem digit_lt (p : Params) (v j : Nat) : digit p v j < base p := Nat.mod_lt _ (base_pos p)

theorem digit_zero (p : Params) (v : Nat) : digit p v 0 = v % base p := by simp [digit]

theorem digit_succ (p : Params) (v j : Nat) : digit p v (j + 1) = digit p (v / base p) j := by
  simp [digit_eq, pow_succ', Nat.div_div_eq_div_mul]

/-- A value has no words at and above `N` ("`digit(v, j)` for `j >= N` is 0"). -/
theorem digit_of_le {p : Params} {v j : Nat} (hv : v < limit p) (hj : p.n ≤ j) : digit p v j = 0 := by
  rw [digit_eq, Nat.div_eq_of_lt, Nat.zero_mod]
  exact lt_of_lt_of_le (limit_eq_base_pow p ▸ hv) (Nat.pow_le_pow_right (base_pos p) hj)

/-- The low `len` words of a value are the value modulo `base^len`. -/
theorem ofWords_digits (p : Params) (len v : Nat) :
    ofWords p ((List.range len).map (digit p v)) = v % base p ^ len := by
  induction len generalizing v with
  | zero => simp [ofWords, Nat.mod_one]
  | succ k ih =>
    have hmap : (List.range k).map (digit p v ∘ Nat.succ) = (List.range k).map (digit p (v / base p)) := by
      apply List.map_congr_left
      intro j _
      exact digit_succ p v j
    rw [List.range_succ_eq_map, List.map_cons, List.map_map, ofWords, hmap, ih, digit_zero, pow_succ',
      Nat.mod_mul]

theorem ofWords_toWords (p : Params) (v : Nat) : ofWords p (toWords p v) = v % limit p := by
  rw [toWords, ofWords_digits, limit_eq_base_pow]

theorem ofWords_toWords_of_lt {p : Params} {v : Nat} (h : v < limit p) : ofWords p (toWords p v) = v := by
  rw [ofWords_toWords, Nat.mod_eq_of_lt h]

@[simp] theorem length_toWords (p : Params) (v : Nat) : (toWords p v).length = p.n := by simp [toWords]

/-- Words below `base` make a value below `base^len`. -/
theorem ofWords_lt {p : Params} {ds : List Nat} (h : ∀ d ∈ ds, d < base p) : ofWords p ds < base p ^ ds.length := by
  induction ds with
  | nil => simp [ofWords]
  | cons d ds ih =>
    have hd := h d List.mem_cons_self
    have hs := ih fun e he => h e (List.mem_cons_of_mem _ he)
    rw [ofWords, List.length_cons, pow_succ']
    calc d + base p * ofWords p ds < base p + base p * ofWords p ds := by omega
      _ = base p * (ofWords p ds + 1) := by ring
      _ ≤ base p * base p ^ ds.length := Nat.mul_le_mul_left _ hs

/-- Words that are the digits of a value `v` make `v mod 2^B`. -/
theorem ofWords_map_of_digit {p : Params} {f : Nat → Nat} {v : Nat} (h : ∀ j < p.n, f j = digit p v j) :
    ofWords p ((List.range p.n).map f) = v % limit p := by
  rw [← ofWords_toWords, toWords]
  congr 1
  apply List.map_congr_left
  intro j hj
  exact h j (List.mem_range.mp hj)

theorem ofWords_replicate_zero (p : Params) (k : Nat) : ofWords p (List.replicate k 0) = 0 := by
  induction k with
  | zero => rfl
  | succ k ih => simp [List.replicate_succ, ofWords, ih]

theorem ofWords_headD_tail (p : Params) (ys : List Nat) :
    ofWords p ys = ys.headD 0 + base p * ofWords p ys.tail := by
  cases ys <;> simp [ofWords]

end Sys2Proof.Machine
end

