-- ==== Sys2Proof/Laws/Tracker.lean ====
section
/-!
SUPPORT. The order tracker and the bit length (41_tracker_tests.md R73, R74): what the recursions over words and bits
find.
-/

namespace Sys2Proof.Machine

theorem orderOfWords_le (ds : List Nat) : orderOfWords ds ≤ ds.length := by
  induction ds with
  | nil => simp [orderOfWords]
  | cons d ds ih =>
    rw [orderOfWords]
    split
    · split <;> simp
    · rename_i o ho
      rw [ho] at ih
      simpa using ih

/-- The value of a list of words lies between the powers of `base` its order names. -/
theorem orderOfWords_bounds {p : Params} {ds : List Nat} (h : ∀ d ∈ ds, d < base p) :
    ofWords p ds < base p ^ orderOfWords ds ∧
      (0 < orderOfWords ds → base p ^ (orderOfWords ds - 1) ≤ ofWords p ds) := by
  induction ds with
  | nil => simp [ofWords, orderOfWords]
  | cons d ds ih =>
    have hd := h d List.mem_cons_self
    obtain ⟨ih1, ih2⟩ := ih fun e he => h e (List.mem_cons_of_mem _ he)
    rw [orderOfWords]
    split
    · rename_i ho
      rw [ho] at ih1
      have hz : ofWords p ds = 0 := by simpa using ih1
      rw [ofWords, hz]
      split
      · simp_all
      · simp; omega
    · rename_i o ho
      rw [ho] at ih1 ih2
      have h1 := ih2 (by omega)
      rw [Nat.succ_sub_one] at h1
      rw [ofWords]
      refine ⟨?_, fun _ => ?_⟩
      · rw [show o + 2 = (o + 1) + 1 by rfl, pow_succ']
        calc d + base p * ofWords p ds < base p * (ofWords p ds + 1) := by rw [Nat.mul_add]; omega
          _ ≤ _ := Nat.mul_le_mul_left _ ih1
      · rw [show o + 2 - 1 = o + 1 by rfl, pow_succ']
        calc _ ≤ base p * ofWords p ds := Nat.mul_le_mul_left _ h1
          _ ≤ _ := Nat.le_add_left _ _

/-- The order of the low `len` words of a value below `base^len`. -/
theorem orderOn_bounds {p : Params} {len v : Nat} (hv : v < base p ^ len) :
    orderOn p len v ≤ len ∧ v < base p ^ orderOn p len v ∧
      (0 < orderOn p len v → base p ^ (orderOn p len v - 1) ≤ v) := by
  have hle := orderOfWords_le ((List.range len).map (digit p v))
  have hb := orderOfWords_bounds (p := p) (ds := (List.range len).map (digit p v)) (by
    intro d hd
    obtain ⟨j, -, rfl⟩ := List.mem_map.mp hd
    exact digit_lt p v j)
  rw [ofWords_digits, Nat.mod_eq_of_lt hv] at hb
  exact ⟨by simpa [orderOn] using hle, hb.1, hb.2⟩

theorem order_bounds {p : Params} {v : Nat} (hv : v < limit p) :
    order p v ≤ p.n ∧ v < base p ^ order p v ∧ (0 < order p v → base p ^ (order p v - 1) ≤ v) :=
  orderOn_bounds (by rwa [← limit_eq_base_pow])

theorem order_eq_zero_iff {p : Params} {v : Nat} (hv : v < limit p) : order p v = 0 ↔ v = 0 := by
  obtain ⟨-, h1, h2⟩ := order_bounds hv
  constructor
  · intro h
    rw [h] at h1
    simpa using h1
  · rintro rfl
    by_contra h
    have := h2 (Nat.pos_of_ne_zero h)
    exact absurd this (Nat.not_le.mpr (Nat.pow_pos (base_pos p)))

theorem leadingBit_le (v k : Nat) : leadingBit v k ≤ k := by
  induction k with
  | zero => simp [leadingBit]
  | succ k ih => rw [leadingBit]; split <;> omega

/-- The leading bit of a value below `2^k`. -/
theorem leadingBit_bounds {v k : Nat} (hv : v < 2 ^ k) :
    v < 2 ^ leadingBit v k ∧ (0 < leadingBit v k → 2 ^ (leadingBit v k - 1) ≤ v) := by
  induction k with
  | zero => simpa [leadingBit] using hv
  | succ k ih =>
    rw [leadingBit]
    split
    · rename_i hk
      exact ⟨hv, fun _ => by simpa using Nat.ge_two_pow_of_testBit hk⟩
    · rename_i hk
      apply ih
      by_contra hge
      apply hk
      have h1 : v / 2 ^ k = 1 := by
        rw [pow_succ] at hv
        exact Nat.div_eq_of_lt_le (by omega) (by omega)
      simp [Nat.testBit_eq_decide_div_mod_eq, h1]

/-- The bit length of a value lies between the powers of two it names (41_tracker_tests.md R74). -/
theorem bitlen_bounds {p : Params} {v : Nat} (hv : v < limit p) :
    bitlen p v ≤ p.b ∧ v < 2 ^ bitlen p v ∧ (0 < bitlen p v → 2 ^ (bitlen p v - 1) ≤ v) := by
  obtain ⟨hle, h1, h2⟩ := order_bounds hv
  rw [bitlen]
  split
  · rename_i ho
    rw [ho] at h1
    simpa using h1
  · rename_i o ho
    rw [ho] at hle h1 h2
    have hlow := h2 (by omega)
    rw [Nat.succ_sub_one] at hlow
    have htop : digit p v o = v / base p ^ o := by
      rw [digit_eq, Nat.mod_eq_of_lt]
      rw [Nat.div_lt_iff_lt_mul (Nat.pow_pos (base_pos p)), ← pow_succ']
      exact h1
    have hpow : base p ^ o = 2 ^ (o * p.w) := by rw [base, ← pow_mul, Nat.mul_comm]
    have hd : digit p v o < 2 ^ p.w := digit_lt p v o
    have htop1 : 0 < digit p v o := by rw [htop]; exact Nat.div_pos hlow (Nat.pow_pos (base_pos p))
    obtain ⟨b1, b2⟩ := leadingBit_bounds hd
    have hpos : 0 < leadingBit (digit p v o) p.w := by
      by_contra h0
      have : leadingBit (digit p v o) p.w = 0 := by omega
      rw [this] at b1
      omega
    have b2' := b2 hpos
    refine ⟨?_, ?_, fun _ => ?_⟩
    · have := leadingBit_le (digit p v o) p.w
      calc _ ≤ o * p.w + p.w := by omega
        _ = (o + 1) * p.w := by ring
        _ ≤ p.n * p.w := Nat.mul_le_mul_right _ hle
        _ = p.b := Nat.mul_comm _ _
    · rw [pow_add, ← hpow]
      calc v < base p ^ o * (v / base p ^ o + 1) := Nat.lt_mul_div_succ v (Nat.pow_pos (base_pos p))
        _ ≤ _ := Nat.mul_le_mul_left _ (by rw [← htop]; exact b1)
    · rw [Nat.add_sub_assoc hpos, pow_add, ← hpow]
      calc _ ≤ base p ^ o * (v / base p ^ o) := Nat.mul_le_mul_left _ (by rw [← htop]; exact b2')
        _ ≤ v := Nat.mul_div_le _ _

end Sys2Proof.Machine
end

