-- ==== Sys2Proof/Laws/Units.lean ====
section
/-!
SUPPORT. One lemma per unit: what the word-by-word loops of Machine/Units.lean compute, as arithmetic on values.
-/

namespace Sys2Proof.Machine

/-! ### Adder and subtractor -/

/-- The carry chain adds exactly: nothing is lost between the words and the carry out. -/
theorem addWords_value (p : Params) (xs ys : List Nat) (c : Nat) (h : xs.length = ys.length) :
    ofWords p (addWords p xs ys c).1 + base p ^ xs.length * (addWords p xs ys c).2
      = ofWords p xs + ofWords p ys + c := by
  induction xs generalizing ys c with
  | nil => cases ys <;> simp_all [addWords, ofWords]
  | cons x xs ih =>
    cases ys with
    | nil => simp at h
    | cons y ys =>
      have ih' := ih ys ((x + y + c) / base p) (by simpa using h)
      have hs := Nat.mod_add_div (x + y + c) (base p)
      simp only [addWords, ofWords, List.length_cons, pow_succ']
      calc _ = (x + y + c) % base p + base p * (ofWords p (addWords p xs ys ((x + y + c) / base p)).1
              + base p ^ xs.length * (addWords p xs ys ((x + y + c) / base p)).2) := by ring
        _ = ((x + y + c) % base p + base p * ((x + y + c) / base p))
              + base p * (ofWords p xs + ofWords p ys) := by rw [ih']; ring
        _ = _ := by rw [hs]; ring

theorem addWords_lt (p : Params) (xs ys : List Nat) (c : Nat) (h : xs.length = ys.length) :
    ofWords p (addWords p xs ys c).1 < base p ^ xs.length := by
  induction xs generalizing ys c with
  | nil => cases ys <;> simp [addWords, ofWords]
  | cons x xs ih =>
    cases ys with
    | nil => simp at h
    | cons y ys =>
      have ih' := ih ys ((x + y + c) / base p) (by simpa using h)
      have hm := Nat.mod_lt (x + y + c) (base_pos p)
      simp only [addWords, ofWords, List.length_cons, pow_succ']
      calc _ < base p + base p * ofWords p (addWords p xs ys ((x + y + c) / base p)).1 := by omega
        _ = base p * (ofWords p (addWords p xs ys ((x + y + c) / base p)).1 + 1) := by ring
        _ ≤ _ := Nat.mul_le_mul_left _ ih'

theorem addUnit_value (p : Params) (a b : Nat) :
    (addUnit p a b).1 + limit p * (addUnit p a b).2 = a % limit p + b % limit p ∧
      (addUnit p a b).1 < limit p := by
  have h := addWords_value p (toWords p a) (toWords p b) 0 (by simp)
  have hl := addWords_lt p (toWords p a) (toWords p b) 0 (by simp)
  simp only [length_toWords, ofWords_toWords, ← limit_eq_base_pow] at h hl
  exact ⟨by simpa [addUnit] using h, by simpa [addUnit] using hl⟩

/-- The adder's words are the sum modulo `2^B` (42_addsub.md R80). -/
theorem addUnit_fst (p : Params) (a b : Nat) : (addUnit p a b).1 = (a + b) % limit p := by
  obtain ⟨h, hl⟩ := addUnit_value p a b
  rw [Nat.add_mod a b, ← h, Nat.add_mul_mod_self_left, Nat.mod_eq_of_lt hl]

/-- The adder's carry out is the sum divided by `2^B` (42_addsub.md R80). -/
theorem addUnit_snd (p : Params) (a b : Nat) : (addUnit p a b).2 = (a % limit p + b % limit p) / limit p := by
  obtain ⟨h, hl⟩ := addUnit_value p a b
  rw [← h, Nat.add_mul_div_left _ _ (limit_pos p), Nat.div_eq_of_lt hl, Nat.zero_add]

/-- The borrow chain subtracts exactly: nothing is lost between the words and the borrow out. -/
theorem subWords_value (p : Params) (xs ys : List Nat) (c : Nat) (h : xs.length = ys.length)
    (hx : ∀ x ∈ xs, x < base p) (hy : ∀ y ∈ ys, y < base p) (hc : c ≤ 1) :
    (ofWords p (subWords p xs ys c).1 : Int) - (base p : Int) ^ xs.length * (subWords p xs ys c).2
      = (ofWords p xs : Int) - ofWords p ys - c ∧
    ofWords p (subWords p xs ys c).1 < base p ^ xs.length ∧ (subWords p xs ys c).2 ≤ 1 := by
  induction xs generalizing ys c with
  | nil => cases ys <;> simp_all [subWords, ofWords]
  | cons x xs ih =>
    cases ys with
    | nil => simp at h
    | cons y ys =>
      have hx0 := hx x List.mem_cons_self
      have hy0 := hy y List.mem_cons_self
      generalize hw : (if (x : Int) - y - c < 0 then 1 else 0 : Nat) = w'
      have hw1 : w' ≤ 1 := by rw [← hw]; split <;> omega
      obtain ⟨ih1, ih2, ih3⟩ := ih ys w' (by simpa using h)
        (fun d hd => hx d (List.mem_cons_of_mem _ hd)) (fun d hd => hy d (List.mem_cons_of_mem _ hd)) hw1
      have hb : (0 : Int) < base p := by exact_mod_cast base_pos p
      have hm0 := Int.emod_nonneg ((x : Int) - y - c) (ne_of_gt hb)
      have hmlt := Int.emod_lt_of_pos ((x : Int) - y - c) hb
      have hdiv : ((x : Int) - y - c) % base p = x - y - c + base p * w' := by
        rw [← hw]
        split
        · rename_i hneg
          rw [← Int.add_emod_right, Int.emod_eq_of_lt (by omega) (by omega)]; simp
        · rename_i hpos
          rw [Int.emod_eq_of_lt (by omega) (by omega)]; simp
      simp only [subWords, ofWords, List.length_cons, pow_succ', hw]
      refine ⟨?_, ?_, ih3⟩
      · push_cast
        rw [Int.toNat_of_nonneg hm0, hdiv]
        linear_combination (base p : Int) * ih1
      · have hlt : (((x : Int) - y - c) % base p).toNat < base p := by omega
        calc _ < base p + base p * ofWords p (subWords p xs ys w').1 := by omega
          _ = base p * (ofWords p (subWords p xs ys w').1 + 1) := by ring
          _ ≤ _ := Nat.mul_le_mul_left _ ih2

theorem toWords_lt (p : Params) (v : Nat) : ∀ d ∈ toWords p v, d < base p := by
  intro d hd
  obtain ⟨j, -, rfl⟩ := List.mem_map.mp hd
  exact digit_lt p v j

theorem subUnit_value (p : Params) (a b : Nat) :
    ((subUnit p a b).1 : Int) - limit p * (subUnit p a b).2 = (a % limit p : Nat) - (b % limit p : Nat) ∧
      (subUnit p a b).1 < limit p ∧ (subUnit p a b).2 ≤ 1 := by
  have h := subWords_value p (toWords p a) (toWords p b) 0 (by simp) (toWords_lt p a) (toWords_lt p b) (by omega)
  simp only [length_toWords, ofWords_toWords, ← limit_eq_base_pow] at h
  have hc : ((base p : Int)) ^ p.n = (limit p : Int) := by rw [limit_eq_base_pow]; push_cast; rfl
  rw [hc] at h
  simpa [subUnit] using h

/-- The subtractor's words and borrow out for values in range (42_addsub.md R81). -/
theorem subUnit_of_lt {p : Params} {a b : Nat} (ha : a < limit p) (hb : b < limit p) :
    (subUnit p a b).1 = (a + limit p - b) % limit p ∧ (subUnit p a b).2 = if a < b then 1 else 0 := by
  obtain ⟨h, hl, h1⟩ := subUnit_value p a b
  rw [Nat.mod_eq_of_lt ha, Nat.mod_eq_of_lt hb] at h
  rcases Nat.lt_or_ge 0 (subUnit p a b).2 with hw | hw
  · have hw1 : (subUnit p a b).2 = 1 := by omega
    rw [hw1] at h ⊢
    have : a < b := by push_cast at h; omega
    rw [Nat.mod_eq_of_lt (by omega), if_pos this]
    constructor
    · push_cast at h; omega
    · rfl
  · have hw0 : (subUnit p a b).2 = 0 := by omega
    rw [hw0] at h ⊢
    have : ¬ a < b := by push_cast at h; omega
    rw [if_neg this, show a + limit p - b = (a - b) + limit p by omega, Nat.add_mod_right,
      Nat.mod_eq_of_lt (by omega)]
    constructor
    · push_cast at h; omega
    · rfl

/-! ### Multiplier -/

@[simp] theorem length_mulRow (p : Params) (x : Nat) (out ys : List Nat) (c : Nat) :
    (mulRow p x out ys c).length = out.length := by
  induction out generalizing ys c with
  | nil => rfl
  | cons o os ih => simp [mulRow, ih]

/-- A row adds `x * ys + c` into `out`, dropping the carry out of the last word. -/
theorem mulRow_value (p : Params) (x : Nat) (out ys : List Nat) (c : Nat) :
    ofWords p (mulRow p x out ys c) = (ofWords p out + x * ofWords p ys + c) % base p ^ out.length := by
  induction out generalizing ys c with
  | nil => simp [mulRow, ofWords, Nat.mod_one]
  | cons o os ih =>
    simp only [mulRow, ofWords, List.length_cons, pow_succ', ih]
    rw [ofWords_headD_tail p ys, Nat.mod_mul]
    have hsplit : o + base p * ofWords p os + x * (ys.headD 0 + base p * ofWords p ys.tail) + c
        = (x * ys.headD 0 + o + c) + base p * (ofWords p os + x * ofWords p ys.tail) := by ring
    rw [hsplit, Nat.add_mul_mod_self_left, Nat.add_mul_div_left _ _ (base_pos p)]
    congr 3
    omega

/-- The rows together add the product into `out`. -/
theorem mulInto_value (p : Params) (xs ys out : List Nat) (hout : ∀ o ∈ out, o < base p) :
    ofWords p (mulInto p xs ys out) = (ofWords p out + ofWords p xs * ofWords p ys) % base p ^ out.length := by
  induction xs generalizing out with
  | nil => simp [mulInto, ofWords, Nat.mod_eq_of_lt (ofWords_lt hout)]
  | cons x xs ih =>
    have hrow := mulRow_value p x out ys 0
    have hlen := length_mulRow p x out ys 0
    have hlt : ∀ o ∈ mulRow p x out ys 0, o < base p := by
      clear hrow hlen ih hout
      generalize (0 : Nat) = c
      induction out generalizing ys c with
      | nil => simp [mulRow]
      | cons o os ih =>
        intro d hd
        rw [mulRow, List.mem_cons] at hd
        rcases hd with rfl | hd
        · exact Nat.mod_lt _ (base_pos p)
        · exact ih _ _ d hd
    rw [mulInto]
    cases hr : mulRow p x out ys 0 with
    | nil =>
      rw [hr] at hlen
      have : out.length = 0 := by simpa using hlen.symm
      simp [ofWords, this, Nat.mod_one]
    | cons o os =>
      rw [hr] at hlen hrow hlt
      have hos : os.length + 1 = out.length := by simpa using hlen
      simp only [ofWords] at hrow ⊢
      rw [ih os fun d hd => hlt d (List.mem_cons_of_mem _ hd)]
      have ho : o < base p := hlt o List.mem_cons_self
      rw [← hos, pow_succ'] at hrow ⊢
      calc o + base p * ((ofWords p os + ofWords p xs * ofWords p ys) % base p ^ os.length)
          = (o + base p * ofWords p os + base p * (ofWords p xs * ofWords p ys)) % (base p * base p ^ os.length) := by
            rw [Nat.mod_mul]
            have hsplit : o + base p * ofWords p os + base p * (ofWords p xs * ofWords p ys)
                = o + base p * (ofWords p os + ofWords p xs * ofWords p ys) := by ring
            rw [hsplit, Nat.add_mul_mod_self_left, Nat.add_mul_div_left _ _ (base_pos p), Nat.mod_eq_of_lt ho,
              Nat.div_eq_of_lt ho, Nat.zero_add]
        _ = _ := by
            rw [hrow, Nat.mod_add_mod]
            congr 1
            ring

/-- The schoolbook loop's low half is the product modulo `2^B` (43_multiply.md R85). -/
theorem mulLow_eq (p : Params) (a b : Nat) : mulLow p a b = a * b % limit p := by
  rw [mulLow, mulInto_value _ _ _ _ (by simp), ofWords_replicate_zero, ofWords_toWords, ofWords_toWords,
    List.length_replicate, ← limit_eq_base_pow, Nat.zero_add, ← Nat.mul_mod]

/-- The schoolbook loop over all word pairs forms the exact product (43_multiply.md R86). -/
theorem mulWide_eq (p : Params) (a b : Nat) : mulWide p a b = (a % limit p) * (b % limit p) := by
  rw [mulWide, mulInto_value _ _ _ _ (by simp), ofWords_replicate_zero, ofWords_toWords, ofWords_toWords,
    List.length_replicate, Nat.zero_add, Nat.mod_eq_of_lt]
  rw [two_mul, pow_add, ← limit_eq_base_pow]
  exact Nat.mul_lt_mul'' (Nat.mod_lt _ (limit_pos p)) (Nat.mod_lt _ (limit_pos p))

/-! ### Shifter -/

/-- A part below `2^s` does not disturb the bits from `s` up. -/
theorem mod_two_pow_add {s w L : Nat} (D : Nat) (hs : s ≤ w) (hL : L < 2 ^ s) :
    (D * 2 ^ s + L) % 2 ^ w = D * 2 ^ s % 2 ^ w + L := by
  obtain ⟨k, rfl⟩ := Nat.exists_eq_add_of_le hs
  rw [pow_add, Nat.mod_mul, Nat.mod_mul, Nat.mul_comm D, Nat.mul_add_mod_self_left, Nat.mod_eq_of_lt hL,
    Nat.mul_add_div (Nat.two_pow_pos s), Nat.div_eq_of_lt hL, Nat.mul_mod_right,
    Nat.mul_div_cancel_left _ (Nat.two_pow_pos s)]
  simp [Nat.add_comm]

theorem shlWord_eq_digit {p : Params} (hw : 0 < p.w) (a imm j : Nat) :
    shlWord p a imm j = digit p (a * 2 ^ imm) j := by
  have himm := Nat.div_add_mod imm p.w
  have hs := Nat.mod_lt imm hw
  simp only [shlWord, digit, base]
  generalize imm / p.w = q at *
  generalize imm % p.w = s at *
  subst himm
  split
  · rename_i hj
    obtain ⟨d, rfl⟩ := Nat.exists_eq_add_of_lt hj
    rw [show p.w * (j + d + 1) + s = p.w * j + (p.w + (p.w * d + s)) by ring, pow_add, pow_add,
      show a * (2 ^ (p.w * j) * (2 ^ p.w * 2 ^ (p.w * d + s)))
        = 2 ^ (p.w * j) * (2 ^ p.w * (a * 2 ^ (p.w * d + s))) by ring,
      Nat.mul_div_cancel_left _ (Nat.two_pow_pos _), Nat.mul_mod_right]
  · rename_i hj
    obtain ⟨m, rfl⟩ := Nat.exists_eq_add_of_le (Nat.le_of_not_lt hj)
    rw [Nat.add_sub_cancel_left]
    have hA : a * 2 ^ (p.w * q + s) / 2 ^ (p.w * (q + m)) = a * 2 ^ s / 2 ^ (p.w * m) := by
      rw [pow_add, Nat.mul_add, pow_add, show a * (2 ^ (p.w * q) * 2 ^ s) = 2 ^ (p.w * q) * (a * 2 ^ s) by ring,
        Nat.mul_div_mul_left _ _ (Nat.two_pow_pos _)]
    rw [hA]
    rcases m with _ | m
    · simp
    · rcases Nat.eq_zero_or_pos s with rfl | hs0
      · simp
      · rw [if_neg (by omega), Nat.add_sub_cancel]
        generalize hD1 : a / 2 ^ (p.w * (m + 1)) = D1
        generalize hD0 : a / 2 ^ (p.w * m) % 2 ^ p.w = D0
        have hA1 : a / 2 ^ (p.w * m) = D1 * 2 ^ p.w + D0 := by
          rw [← hD1, ← hD0, Nat.mul_succ, pow_add, ← Nat.div_div_eq_div_mul]
          exact (Nat.div_add_mod' _ _).symm
        have hX : a * 2 ^ s / 2 ^ (p.w * (m + 1)) = D1 * 2 ^ s + D0 / 2 ^ (p.w - s) := by
          have hsplit : 2 ^ (p.w * (m + 1)) = 2 ^ (p.w * m) * 2 ^ (p.w - s) * 2 ^ s := by
            rw [← pow_add, ← pow_add]; congr 1; rw [Nat.mul_succ]; omega
          rw [hsplit, Nat.mul_div_mul_right _ _ (Nat.two_pow_pos s), ← Nat.div_div_eq_div_mul, hA1,
            show 2 ^ p.w = 2 ^ s * 2 ^ (p.w - s) by rw [← pow_add]; congr 1; omega, ← Nat.mul_assoc,
            Nat.mul_comm (D1 * 2 ^ s), Nat.mul_add_div (Nat.two_pow_pos _)]
        have hL : D0 / 2 ^ (p.w - s) < 2 ^ s := by
          rw [Nat.div_lt_iff_lt_mul (Nat.two_pow_pos _), ← pow_add, show s + (p.w - s) = p.w by omega, ← hD0]
          exact Nat.mod_lt _ (Nat.two_pow_pos _)
        rw [hX, mod_two_pow_add D1 hs.le hL, Nat.mod_mul_mod]

/-- The left shift unit is multiplication by `2^imm` modulo `2^B` (45_shift.md R100). -/
theorem shlUnit_eq {p : Params} (hw : 0 < p.w) (a imm : Nat) : shlUnit p a imm = a * 2 ^ imm % limit p :=
  ofWords_map_of_digit fun j _ => shlWord_eq_digit hw a imm j

theorem shrWord_eq_digit {p : Params} (hw : 0 < p.w) {a : Nat} (ha : a < limit p) (imm j : Nat) :
    shrWord p a imm j = digit p (a / 2 ^ imm) j := by
  have himm := Nat.div_add_mod imm p.w
  have hs := Nat.mod_lt imm hw
  have htop : ∀ k, p.n ≤ k → a / 2 ^ (p.w * k) = 0 := fun k hk =>
    Nat.div_eq_of_lt (lt_of_lt_of_le ha (Nat.pow_le_pow_right (by omega) (Nat.mul_le_mul_left _ hk)))
  simp only [shrWord]
  generalize imm / p.w = q at *
  generalize imm % p.w = s at *
  subst himm
  have hA : a / 2 ^ (p.w * q + s) / 2 ^ (p.w * j) = a / 2 ^ (p.w * (j + q)) / 2 ^ s := by
    rw [Nat.div_div_eq_div_mul, Nat.div_div_eq_div_mul, ← pow_add, ← pow_add]
    congr 2
    ring
  generalize hsrc : j + q = src at *
  simp only [digit, base, hA]
  split
  · rename_i hn
    simp [htop src hn]
  · generalize hD1 : a / 2 ^ (p.w * (src + 1)) = D1
    generalize hD0 : a / 2 ^ (p.w * src) % 2 ^ p.w = D0
    have hA1 : a / 2 ^ (p.w * src) = D1 * 2 ^ p.w + D0 := by
      rw [← hD1, ← hD0, Nat.mul_succ, pow_add, ← Nat.div_div_eq_div_mul]
      exact (Nat.div_add_mod' _ _).symm
    have hD0lt : D0 < 2 ^ p.w := by rw [← hD0]; exact Nat.mod_lt _ (Nat.two_pow_pos _)
    have hX : a / 2 ^ (p.w * src) / 2 ^ s = D1 * 2 ^ (p.w - s) + D0 / 2 ^ s := by
      rw [hA1, show 2 ^ p.w = 2 ^ (p.w - s) * 2 ^ s by rw [← pow_add]; congr 1; omega, ← Nat.mul_assoc,
        Nat.mul_comm (D1 * 2 ^ (p.w - s)), Nat.mul_add_div (Nat.two_pow_pos _)]
    have hL : D0 / 2 ^ s < 2 ^ (p.w - s) := by
      rw [Nat.div_lt_iff_lt_mul (Nat.two_pow_pos _), ← pow_add, show p.w - s + s = p.w by omega]
      exact hD0lt
    rw [hX, mod_two_pow_add D1 (by omega) hL]
    split
    · rename_i hor
      rcases hor with rfl | hn
      · simp
      · rw [← hD1, htop _ hn]; simp
    · rw [Nat.mod_mul_mod]
      omega

/-- The right shift unit is division by `2^imm` (45_shift.md R101). -/
theorem shrUnit_eq {p : Params} (hw : 0 < p.w) {a : Nat} (ha : a < limit p) (imm : Nat) :
    shrUnit p a imm = a / 2 ^ imm := by
  rw [shrUnit, ofWords_map_of_digit fun j _ => shrWord_eq_digit hw ha imm j]
  exact Nat.mod_eq_of_lt (lt_of_le_of_lt (Nat.div_le_self _ _) ha)

end Sys2Proof.Machine
end

