-- ==== Sys2Proof/Tests/Slice0.lean ====
section
/-!
SUPPORT. The model's own tests. Expected words and values come from the examples of the spec's rules and from
95_test_vectors.md, all in the build T8; each test names its source. The witnesses at the end give, for every statement
with hypotheses, a concrete state and operands that meet them, one per clause where a statement has several.
-/

open Sys2Proof Sys2Proof.Machine

namespace Sys2Proof.Tests

set_option maxRecDepth 4000

/-! ### Helpers -/

/-- A state of the build T8 with the given values in `r1` to `r5`. -/
def tState (a b c d e : Nat) : State := { State.reset with r := #v[0, a, b, c, d, e, 0, 0, 0, 0, 0, 0, 0, 0, 0, 0] }

/-- `f` of the state after one step that runs the command word `word`; none where the step stops. -/
def after {α : Type} (s : State) (word : Nat) (f : State → α) : Option α :=
  match step (s.withFetchWord 32 word) with
  | .next t => some (f t)
  | _ => none

/-- The fault record. -/
def fault (s : State) : ErrCode × Cmd := (s.err, s.ecmd)

/-- A state with `MOD = m`. -/
def tMod (m a b : Nat) : State := { tState a b 0 0 0 with mod := m }

/-- A state with the Montgomery context of 47_montgomery.md R115: `MN = 13`, `MNINV = 11`, `MK = 4`. -/
def tMont (a b c d : Nat) : State := { tState a b c d 0 with mn := 13, mninv := 11, mkWidth := 4 }

/-! ### WellFormed: a term that each check refuses -/

theorem test_wellFormed_refuses_ldw_index : Instr.staticCheck 4 (.ldw 1 4) = some .wordIndexOutOfRange := by decide
theorem test_wellFormed_refuses_stw_index : Instr.staticCheck 4 (.stw 1 4) = some .wordIndexOutOfRange := by decide
theorem test_wellFormed_refuses_mulx_alias : Instr.staticCheck 4 (.mulx 2 0 1 2) = some .destinationsAlias := by decide
theorem test_wellFormed_refuses_div_alias : Instr.staticCheck 4 (.div 1 1 2) = some .destinationsAlias := by decide
theorem test_wellFormed_refuses_divx_alias : Instr.staticCheck 4 (.divx 1 1 2 3) = some .destinationsAlias := by decide
theorem test_wellFormed_accepts_last_word : Instr.wellFormed 4 (.ldw 1 3) ∧ Instr.wellFormed 4 (.stw 1 3) := by decide

/-! ### Decoding: every constructor, by words the rules give as examples -/

/-- 40_move_convert.md R60 to R66; `MOV r2, r1` bit by bit: OP 0x10, RD 2, RA 1, RB, RC, ZERO 0. -/
theorem test_decode_move :
    decodeTableWord 32 0b00010000001000010000000000000000 = some (.mov 2 1) ∧
    decodeTableWord 32 0x11100000 = some (.setw 1) ∧ decodeTableWord 32 0x12200000 = some (.setdw 2) ∧
    decodeTableWord 32 0x13030000 = some (.getw 3) ∧ decodeTableWord 32 0x14030000 = some (.getdw 3) ∧
    decodeTableWord 32 0x15100002 = some (.ldw 1 2) ∧ decodeTableWord 32 0x16030003 = some (.stw 3 3) := by decide

/-- 41_tracker_tests.md R70 to R76; `CMP r2, r1` bit by bit: OP 0x26, RD 0, RA 2, RB 1, RC, ZERO 0. -/
theorem test_decode_tracker :
    decodeTableWord 32 0x20010000 = some (.iszero 1) ∧ decodeTableWord 32 0x21010000 = some (.isodd 1) ∧
    decodeTableWord 32 0x22010000 = some (.iseven 1) ∧ decodeTableWord 32 0x23010000 = some (.order 1) ∧
    decodeTableWord 32 0x24010000 = some (.bitlen 1) ∧ decodeTableWord 32 0x2501000A = some (.getbit 1 10) ∧
    decodeTableWord 32 0b00100110000000100001000000000000 = some (.cmp 2 1) := by decide

/-- 42_addsub.md R80, R81 and 43_multiply.md R85, R86; `ADD r3, r1, r2` and `MULX r2, r3, r0, r1` bit by bit. -/
theorem test_decode_add_multiply :
    decodeTableWord 32 0b00110000001100010010000000000000 = some (.add 3 1 2) ∧
    decodeTableWord 32 0x31312000 = some (.sub 3 1 2) ∧ decodeTableWord 32 0x40312000 = some (.mul 3 1 2) ∧
    decodeTableWord 32 0b01000001001000000001001100000000 = some (.mulx 2 0 1 3) := by decide

/-- 44_divide.md R90, R91 and 45_shift.md R100, R101; `DIVX r4, r2, r3, r5` and `SHL r2, r1, 12` bit by bit. -/
theorem test_decode_divide_shift :
    decodeTableWord 32 0x50312000 = some (.div 3 1 2) ∧
    decodeTableWord 32 0b01010001010000100101001100000000 = some (.divx 4 2 5 3) ∧
    decodeTableWord 32 0b01100000001000010000000000001100 = some (.shl 2 1 12) ∧
    decodeTableWord 32 0x61210009 = some (.shr 2 1 9) := by decide

/-- 46_modular.md R105 to R110; `MODADD r3, r1, r2` bit by bit. -/
theorem test_decode_modulo :
    decodeTableWord 32 0x70000000 = some (.setmod 0) ∧ decodeTableWord 32 0x71010000 = some (.modnorm 1) ∧
    decodeTableWord 32 0b01110010001100010010000000000000 = some (.modadd 3 1 2) ∧
    decodeTableWord 32 0x73312000 = some (.modsub 3 1 2) ∧ decodeTableWord 32 0x74312000 = some (.modmul 3 1 2) ∧
    decodeTableWord 32 0x75312000 = some (.modpow 3 1 2) := by decide

/-- 47_montgomery.md R115 to R119; `MSETUP r1, r2, 4` bit by bit: OP 0x80, RX 2, RA 1, IMM16 4. -/
theorem test_decode_montgomery :
    decodeTableWord 32 0b10000000001000010000000000000100 = some (.msetup 2 1 4) ∧
    decodeTableWord 32 0x81430000 = some (.mtorepr 4 3) ∧ decodeTableWord 32 0x82540000 = some (.mfromrepr 5 4) ∧
    decodeTableWord 32 0x83846000 = some (.mmul 8 4 6) ∧ decodeTableWord 32 0x84A49000 = some (.mpow 10 4 9) := by decide

/-- 30_encoding.md R49: unused opcodes, the all-zero and the all-ones word, nonzero unused fields. -/
theorem test_decode_rejects :
    decodeTableWord 32 0x00000000 = none ∧ decodeTableWord 32 0xFFFFFFFF = none ∧
    decodeTableWord 32 0x17000000 = none ∧ decodeTableWord 32 0x10210001 = none ∧
    decodeTableWord 32 0x30312100 = none ∧ decodeTableWord 32 0x41201301 = none ∧
    decodeTableWord 32 0x15110002 = none ∧ decodeTableWord 32 0x70100000 = none := by decide

/-- No two rows of the opcode map fit one word: each pair of patterns differs in a bit both masks check. -/
theorem test_opcode_rows_disjoint :
    opcodeTable.Pairwise (fun a b => a.pattern &&& b.mask &&& 0xFF000000 ≠ b.pattern &&& a.mask &&& 0xFF000000) := by decide

/-! ### One step per instruction -/

/-- 40_move_convert.md R60 to R66, the rules' examples. -/
theorem test_mov : after (tState 0xDEADBEEF 0 0 0 0) 0x10210000 (·.reg 2) = some 0xDEADBEEF := by decide
theorem test_setw : after { tState 0xFFFFFFFF 0 0 0 0 with din0 := 0xAB } 0x11100000 (·.reg 1) = some 0xAB := by decide
theorem test_setdw :
    after { tState 0 0xFFFFFFFF 0 0 0 with din0 := 0x34, din1 := 0x12 } 0x12200000 (·.reg 2) = some 0x1234 := by decide
theorem test_setdw_one_word :
    after { tState 0 0 0 0 0 with par := ⟨8, 1⟩, din0 := 0x34, din1 := 0x12 } 0x12200000 (·.reg 2) = some 0x34 := by decide
theorem test_getw :
    after { tState 0 0 0xDEADBEEF 0 0 with dout1 := 7 } 0x13030000 (fun t => (t.dout0, t.dout1)) = some (0xEF, 7) := by
  decide
theorem test_getdw : after (tState 0 0 0xDEADBEEF 0 0) 0x14030000 (fun t => (t.dout0, t.dout1)) = some (0xEF, 0xBE) := by
  decide
theorem test_ldw : after { tState 0xAB 0 0 0 0 with din0 := 0xCD } 0x15100002 (·.reg 1) = some 0xCD00AB := by decide
theorem test_ldw_index : after (tState 0xAB 0 0 0 0) 0x15100004 fault = some (.illegal, 0x15100004) := by decide
theorem test_stw : after (tState 0 0 0xDEADBEEF 0 0) 0x16030003 (·.dout0) = some 0xDE := by decide
theorem test_stw_index : after (tState 0 0 0 0 0) 0x16030004 fault = some (.illegal, 0x16030004) := by decide

/-- 41_tracker_tests.md R70 to R76, the rules' examples. -/
theorem test_iszero : after (tState 0x10000 0 0 0 0) 0x20010000 (·.flags.t) = some false := by decide
theorem test_iszero_of_zero : after (tState 0 0 0 0 0) 0x20010000 (·.flags.t) = some true := by decide
theorem test_isodd : after (tState 0x12C01 0 0 0 0) 0x21010000 (·.flags.t) = some true := by decide
theorem test_iseven : after (tState 0x12C00 0 0 0 0) 0x22010000 (·.flags.t) = some true := by decide
theorem test_order : after (tState 0x12C00 0 0 0 0) 0x23010000 (·.sr) = some 3 := by decide
theorem test_order_of_zero : after (tState 0 0 0 0 0) 0x23010000 (·.sr) = some 0 := by decide
theorem test_bitlen : after (tState 0x12C00 0 0 0 0) 0x24010000 (·.sr) = some 17 := by decide
theorem test_bitlen_full : after (tState 0xFFFFFFFF 0 0 0 0) 0x24010000 (·.sr) = some 32 := by decide
theorem test_getbit : after (tState 0x12C00 0 0 0 0) 0x2501000A (·.flags.t) = some true := by decide
theorem test_getbit_above : after (tState 0x12C00 0 0 0 0) 0x25010028 (·.flags.t) = some false := by decide
theorem test_cmp_greater :
    after (tState 0x12C00 0x12BFF 0 0 0) 0x26012000 (fun t => (t.flags.eq, t.flags.lt)) = some (false, false) := by decide
theorem test_cmp_less :
    after (tState 0x12C00 0x12BFF 0 0 0) 0x26021000 (fun t => (t.flags.eq, t.flags.lt)) = some (false, true) := by decide

/-- 42_addsub.md R80, R81 and 43_multiply.md R85, R86, the rules' examples. -/
theorem test_add_carry_between_words :
    after (tState 0xFF 1 0 0 0) 0x30312000 (fun t => (t.reg 3, t.flags.cy)) = some (0x100, false) := by decide
theorem test_add_wraps :
    after (tState 0xFFFFFFFF 1 0 0 0) 0x30312000 (fun t => (t.reg 3, t.flags.cy)) = some (0, true) := by decide
theorem test_sub_borrow_between_words :
    after (tState 0x100 1 0 0 0) 0x31312000 (fun t => (t.reg 3, t.flags.cy)) = some (0xFF, false) := by decide
theorem test_sub_wraps :
    after (tState 0 1 0 0 0) 0x31312000 (fun t => (t.reg 3, t.flags.cy)) = some (0xFFFFFFFF, true) := by decide
theorem test_mul_truncates : after (tState 0x10001 0x10001 0 0 0) 0x40312000 (·.reg 3) = some 0x20001 := by decide
theorem test_mulx :
    after { tState 0xFFFFFFFF 0 0 0 0 with r := #v[0xFFFFFFFF, 0xFFFFFFFF, 0, 0, 0, 0, 0, 0, 0, 0, 0, 0, 0, 0, 0, 0] }
      0x41201300 (fun t => (t.reg 2, t.reg 3)) = some (1, 0xFFFFFFFE) := by decide
theorem test_mulx_alias : after (tState 1 2 0 0 0) 0x41201200 fault = some (.illegal, 0x41201200) := by decide

/-- 44_divide.md R90, R91 and 60_exceptions.md R157, the rules' examples. -/
theorem test_div : after (tState 14 4 0 0 0) 0x50312000 (fun t => (t.reg 3, t.reg 1, t.reg 2)) = some (3, 2, 4) := by decide
theorem test_div_alias_before_zero : after (tState 14 0 0 0 0) 0x50112000 fault = some (.illegal, 0x50112000) := by decide
theorem test_divx :
    after (tState 0 0x20001 1 0 0x10000) 0x51425300 (fun t => (t.reg 4, t.reg 2, t.reg 3)) = some (0x10002, 1, 1) := by decide
theorem test_divx_zero : after (tState 0 1 1 0 0) 0x51425300 fault = some (.div0, 0x51425300) := by decide

/-- 45_shift.md R100, R101, the rules' examples. -/
theorem test_shl_loses_bits : after (tState 0x12C00 0 0 0 0) 0x60210010 (·.reg 2) = some 0x2C000000 := by decide
theorem test_shl_word_and_bits : after (tState 0x12C00 0 0 0 0) 0x6021000C (·.reg 2) = some 0x12C00000 := by decide
theorem test_shr_word_and_bits : after (tState 0x12C00 0 0 0 0) 0x61210009 (·.reg 2) = some 0x96 := by decide
theorem test_shr_to_zero : after (tState 0x12C00 0 0 0 0) 0x61210011 (·.reg 2) = some 0 := by decide

/-- 46_modular.md R105 to R110, the rules' examples. -/
theorem test_setmod : after { tState 0 0 0 0 0 with r := Vector.replicate 16 19 } 0x70000000 (·.mod) = some 19 := by decide
theorem test_modnorm : after (tMod 19 100 0) 0x71010000 (·.reg 1) = some 5 := by decide
theorem test_modnorm_zero : after (tMod 0 100 0) 0x71010000 fault = some (.div0, 0x71010000) := by decide
theorem test_modadd : after (tMod 19 13 6) 0x72312000 (·.reg 3) = some 0 := by decide
theorem test_modadd_above_width :
    after (tMod 0xFFFFFFFB 0xFFFFFFFA 0xFFFFFFF0) 0x72312000 (·.reg 3) = some 0xFFFFFFEF := by decide
theorem test_modsub_borrows : after (tMod 19 3 5) 0x73312000 (·.reg 3) = some 17 := by decide
theorem test_modsub_unreduced : after (tMod 19 3 25) 0x73312000 (·.reg 3) = some 0xFFFFFFFD := by decide
theorem test_modmul : after (tMod 0xFFFFFFFB 0xFFFFFFFA 0xFFFFFFF0) 0x74312000 (·.reg 3) = some 0xB := by decide
theorem test_modpow : after (tMod 19 3 5) 0x75312000 (·.reg 3) = some 15 := by decide
theorem test_modpow_exponent_zero : after (tMod 1 3 0) 0x75312000 (·.reg 3) = some 1 := by decide

/-- 47_montgomery.md R115 to R122, the rules' examples. -/
theorem test_msetup :
    after (tState 13 11 0 0 0) 0x80210004 (fun t => (t.mn, t.mninv, t.mkWidth)) = some (13, 11, 4) := by decide
theorem test_mtorepr : after (tMont 0 0 7 0) 0x81430000 (·.reg 4) = some 8 := by decide
theorem test_mfromrepr : after (tMont 0 0 0 8) 0x82540000 (·.reg 5) = some 7 := by decide
theorem test_mfromrepr_zero_context : after (tState 0 0 0 8 0) 0x82540000 fault = some (.div0, 0x82540000) := by decide
theorem test_mmul : after (tMont 0 9 0 8) 0x83542000 (·.reg 5) = some 11 := by decide
theorem test_mmul_corner : after (tMont 4 4 0 0) 0x83312000 (·.reg 3) = some 2 := by decide
theorem test_mpow_corner : after (tMont 8 5 0 0) 0x84312000 (·.reg 3) = some 3 := by decide
theorem test_mpow_exponent_zero : after (tMont 8 0 0 0) 0x84312000 (·.reg 3) = some 3 := by decide

/-! ### The step around the commands -/

/-- 60_exceptions.md R154: a faulted block refuses a legal command and keeps the first record. -/
theorem test_faulted_block_refuses :
    after { tState 1 2 3 0 0 with err := .div0, ecmd := 5 } 0x30312000 (fun t => (t.reg 3, fault t)) =
      some (3, (.div0, 5)) := by decide

/-- 30_encoding.md R49: the all-zero word is illegal. -/
theorem test_zero_word_is_illegal : after State.reset 0 fault = some (.illegal, 0) := by decide
theorem test_unused_field_is_illegal : after State.reset 0x30312100 fault = some (.illegal, 0x30312100) := by decide

/-- 20_memory.md R31: `FLAGS` reads as CY, LT, EQ, T from bit 3 down; `DIN0` truncates; a ninth index is refused. -/
theorem test_flags_port : (State.portValue { State.reset with flags := ⟨true, false, true, true⟩ } 2) = some 13 := by decide
theorem test_din0_truncates : (State.reset.writeDin0 0x1AB).din0 = 0xAB := by decide
theorem test_no_ninth_port :
    (match portRead 9 State.reset with | .refused (.noSuchPort k) => some k | _ => none) = some 9 := by decide

/-- 30_encoding.md R52: the zero words of an immediate need no `LDW`. -/
theorem test_li_script : liScript Params.t8 1 0x12000034 =
    [.write 4 0x34, .write 0 0x11100000, .write 4 0x12, .write 0 0x15100003] := by decide

/-- 60_exceptions.md R156: a run that divides by zero is the fault outcome, though the host reads on after it. -/
theorem test_claimRun_fault_outcome :
    (match claimRun 2 { tState 14 0 0 0 0 with host := ⟨[cmdLine (.div 3 1 2), .read 1], []⟩ } with
      | .fault (.div0 cmd) => some cmd
      | _ => none) = some 0x50312000 := by decide

/-- 20_memory.md R34: the byte image is little-endian. -/
theorem test_byte_image : byteImage Params.t64 0x0102030405060708 =
    [8, 7, 6, 5, 4, 3, 2, 1] ++ List.replicate 24 0 := by decide

/-! ### Witnesses: states and operands that meet the hypotheses of each statement -/

/-- `s` with one event pending. -/
def tEvent (e : HostEvent) (s : State) : State := s.pushEvent e

/-- A faulted state. -/
def tFaulted : State := { tState 1 2 3 0 0 with err := .illegal, ecmd := 7 }

/-- A content a reset may bring. -/
def tContent : ResetContent := ⟨Vector.replicate 16 0xFFFFFFFF, 1, 2, 3⟩

theorem witness_EncodeOfDecode : decodeTableWord 32 0x30312000 = some (.add 3 1 2) := by decide

theorem witness_StepRunsDecodedCommand :
    (tEvent (.write 0 0x30312000) (tState 1 2 0 0 0)).host.script = [.write 0 0x30312000] ∧
    (tEvent (.write 0 0x30312000) (tState 1 2 0 0 0)).err = .none ∧
    decode (BitVec.ofNat 32 0x30312000) = .ok (.add 3 1 2) := ⟨by decide, by decide, rfl⟩

/-- Clause 1, and clauses 2 and 3 at the first and the last word and at one unused bit. -/
theorem witness_CmdWriteDoesFirstCheckThatApplies_refused :
    (tEvent (.write 0 0) tFaulted).host.script = [.write 0 0] ∧ tFaulted.err ≠ .none ∧
    (∀ row ∈ opcodeTable, (0 : Cmd) &&& row.mask ≠ row.pattern) ∧
    (∀ row ∈ opcodeTable, (0xFFFFFFFF : Cmd) &&& row.mask ≠ row.pattern) ∧
    (∀ row ∈ opcodeTable, (0x30312100 : Cmd) &&& row.mask ≠ row.pattern) := by decide

/-- Clauses 4 and 5, 6 and 7 on decoded commands. -/
theorem witness_CmdWriteDoesFirstCheckThatApplies_decoded :
    (tState 14 0 0 0 0).err = .none ∧ decode 0x15100004 = .ok (.ldw 1 4) ∧ ¬ Instr.wellFormed 4 (.ldw 1 4) ∧
    decode 0x50112000 = .ok (.div 1 1 2) ∧ ¬ Instr.wellFormed 4 (.div 1 1 2) ∧
    decode 0x50312000 = .ok (.div 3 1 2) ∧ Instr.wellFormed 4 (.div 3 1 2) ∧
    zeroDivisor (.div 3 1 2) (tState 14 0 0 0 0) ∧ ¬ zeroDivisor (.div 3 1 2) (tState 14 4 0 0 0) :=
  ⟨by decide, rfl, by decide, rfl, by decide, rfl, by decide,
    show (tState 14 0 0 0 0).reg 2 = 0 by decide, show ¬(tState 14 4 0 0 0).reg 2 = 0 by decide⟩

theorem witness_FaultedBlockRefusesCommands :
    tFaulted.err ≠ .none ∧ (tEvent (.write 0 0x30312000) tFaulted).host.script = [.write 0 0x30312000] ∧
    (tEvent (.write 4 9) tFaulted).host.script = [.write 4 9] ∧
    (tEvent (.write 5 9) tFaulted).host.script = [.write 5 9] ∧
    (tEvent (.read 8) tFaulted).host.script = [.read 8] ∧ tFaulted.portValue 8 = some 7 := by decide

theorem witness_PortReadsFollowTable :
    ∀ p ≤ 8, (tEvent (.read p) (tState 0 0 0 0 0)).host.script = [.read p] := by decide

theorem witness_PortWritesFollowTable :
    ∀ p ≤ 8, 1 ≤ p → (tEvent (.write p 0x1FF) (tState 0 0 0 0 0)).host.script = [.write p 0x1FF] := by decide

theorem witness_EveryCommandEnds : State.reset.host.script = [] := by decide

theorem witness_ResetLeavesScalarsZero :
    (tEvent (.reset tContent) tFaulted).host.script = [.reset tContent] ∧
    (∀ j : Reg, tContent.r[j.val] < 2 ^ tFaulted.par.b) ∧ tContent.mod < 2 ^ tFaulted.par.b ∧
    tContent.mn < 2 ^ tFaulted.par.b ∧ tContent.mninv < 2 ^ tFaulted.par.b := by decide

theorem witness_ResetMeetsInv : Params.t64.ok ∧ Params.ok ⟨1, 1⟩ ∧ Params.ok ⟨65536, 1⟩ ∧ Params.ok ⟨1, 65536⟩ := by decide

theorem witness_StepKeepsInv :
    Inv (tEvent (.write 0 0x30312000) (tState 1 2 0 0 0)) ∧
    ∃ t, step (tEvent (.write 0 0x30312000) (tState 1 2 0 0 0)) = .next t := ⟨by decide, _, rfl⟩

theorem witness_FaultRecordsAndChangesNothingElse :
    (tState 14 0 0 0 0).err = .none ∧ (∃ t, writeCmd 0x50312000 (tState 14 0 0 0 0) = .next t ∧ t.err ≠ .none) ∧
    ∃ t, writeCmd 0 (tState 14 0 0 0 0) = .next t ∧ t.err ≠ .none :=
  ⟨by decide, ⟨_, rfl, by decide⟩, ⟨_, rfl, by decide⟩⟩

theorem witness_IllegalExactlyWhenIllFormed :
    (tState 14 0 0 0 0).err = .none ∧ (∃ t, exec (.ldw 1 4) (tState 14 0 0 0 0) = .next t ∧ t.err = .illegal) ∧
    ∃ t, exec (.ldw 1 3) (tState 14 0 0 0 0) = .next t ∧ t.err ≠ .illegal :=
  ⟨by decide, ⟨_, rfl, by decide⟩, ⟨_, rfl, by decide⟩⟩

theorem witness_DivZeroExactlyWhenDivisorZero :
    (tState 14 0 0 0 0).err = .none ∧ (∃ t, exec (.div 3 1 2) (tState 14 0 0 0 0) = .next t ∧ t.err = .div0) ∧
    ∃ t, exec (.mpow 3 1 2) (tState 14 0 0 0 0) = .next t ∧ t.err = .div0 :=
  ⟨by decide, ⟨_, rfl, by decide⟩, ⟨_, rfl, by decide⟩⟩

theorem witness_OnlyResetEndsAFault :
    (tEvent (.write 4 9) tFaulted).err ≠ .none ∧ NoReset (tEvent (.write 4 9) tFaulted) ∧
    (∃ t, run 1 (tEvent (.write 4 9) tFaulted) = .next t) ∧
    (tEvent (.reset tContent) tFaulted).host.script = [.reset tContent] :=
  ⟨by decide, by simp [NoReset, tEvent, State.pushEvent, State.popEvent, tFaulted, tState, State.reset, State.resetAs],
    ⟨_, rfl⟩, by decide⟩

theorem witness_CommandWritesOnlyItsRow :
    (∃ t, exec (.div 3 1 2) (tState 14 4 0 0 0) = .next t) ∧ Instr.wellFormed 4 (.div 3 1 2) ∧
    ¬ zeroDivisor (.div 3 1 2) (tState 14 4 0 0 0) ∧ Part.sr ∉ writes (.div 3 1 2) :=
  ⟨⟨_, rfl⟩, by decide, show ¬(tState 14 4 0 0 0).reg 2 = 0 by decide, by decide⟩

/-- The two states differ in the dividend's other registers and in `SR`. -/
theorem witness_CommandReadsOnlyItsRow :
    (tState 14 4 0 0 0).par = (tState 14 4 9 9 9).par ∧ (tState 14 4 0 0 0).err = .none ∧
    (∀ q ∈ reads (.div 3 1 2), q.Agree (tState 14 4 0 0 0) { tState 14 4 9 9 9 with sr := 1 }) ∧
    (∃ t, exec (.div 3 1 2) (tState 14 4 0 0 0) = .next t) ∧
    ∃ t, exec (.div 3 1 2) { tState 14 4 9 9 9 with sr := 1 } = .next t := by
  refine ⟨by decide, by decide, ?_, ⟨_, rfl⟩, ⟨_, rfl⟩⟩
  intro q hq
  simp only [reads, List.mem_cons, List.not_mem_nil, or_false] at hq
  obtain rfl | rfl := hq
  · show (tState 14 4 0 0 0).reg 1 = (tState 14 4 9 9 9).reg 1
    decide
  · show (tState 14 4 0 0 0).reg 2 = (tState 14 4 9 9 9).reg 2
    decide

theorem witness_PortsHideRegisters :
    (∀ e ∈ (tEvent (.read 2) (tState 1 2 3 4 5)).host.script, (∃ p, e = .read p) ∨ ∃ p v, e = .write p v ∧ p ≠ 0) ∧
    tEvent (.read 2) { tState 9 9 9 9 9 with mod := 9 } =
      { tEvent (.read 2) (tState 1 2 3 4 5) with r := (tState 9 9 9 9 9).r, mod := 9 } ∧
    (∃ t, run 1 (tEvent (.read 2) (tState 1 2 3 4 5)) = .next t) :=
  ⟨fun e he => .inl ⟨2, by simpa [tEvent, State.pushEvent, State.popEvent, tState, State.reset, State.resetAs] using he⟩,
    rfl, ⟨_, rfl⟩⟩

/-- `N = 4` and `N = 1`. -/
theorem witness_SetCommandsLoadDataPorts :
    Inv { tState 0 0 0 0 0 with din0 := 0xFF, din1 := 0xFF } ∧ 2 ≤ (tState 0 0 0 0 0).par.n ∧
    Inv { tState 0 0 0 0 0 with par := ⟨8, 1⟩, din0 := 0xFF, din1 := 0xFF } := by decide

/-- The last word index of T8 and the first that does not exist. -/
theorem witness_GetCommandsFillDataPorts :
    (3 : Imm).toNat < (tState 0 0 0 0 0).par.n ∧ (tState 0 0 0 0 0).par.n ≤ (4 : Imm).toNat := by decide

theorem witness_LdwReplacesOneWord :
    Inv { tState 0xFFFFFFFF 0 0 0 0 with din0 := 0xFF } ∧ (3 : Imm).toNat < (tState 0 0 0 0 0).par.n ∧
    (tState 0 0 0 0 0).par.n ≤ (4 : Imm).toNat := by decide

/-- Bit 31 exists and bit 32 does not. -/
theorem witness_GetbitReadsBit :
    Inv (tState 0x80000000 0 0 0 0) ∧ (31 : Imm).toNat < (tState 0 0 0 0 0).par.b ∧
    (tState 0 0 0 0 0).par.b ≤ (32 : Imm).toNat := by decide

/-- One state serves `ORDER`, `BITLEN` and their relations: `r1` is the largest value, `r2` is 1 and `r3` is 0. -/
theorem witness_OrderFindsHighestWord :
    Inv (tState 0xFFFFFFFF 1 0 0 0) ∧ (tState 0xFFFFFFFF 1 0 0 0).reg 1 ≠ 0 ∧ (tState 0xFFFFFFFF 1 0 0 0).reg 3 = 0 := by
  decide
theorem witness_BitlenFindsHighestBit :
    Inv (tState 0xFFFFFFFF 1 0 0 0) ∧ (tState 0xFFFFFFFF 1 0 0 0).reg 2 ≠ 0 ∧ (tState 0xFFFFFFFF 1 0 0 0).reg 3 = 0 ∧
    order (tState 0xFFFFFFFF 1 0 0 0).par ((tState 0xFFFFFFFF 1 0 0 0).reg 1) = 4 := by decide
theorem witness_OrderAndBitlenRelate :
    Inv (tState 0xFFFFFFFF 1 0 0 0) ∧ (tState 0xFFFFFFFF 1 0 0 0).reg 1 ≠ 0 ∧ (tState 0xFFFFFFFF 1 0 0 0).reg 3 = 0 := by
  decide

/-- One state serves the comparator, the adder, the subtractor and the multiplier. -/
theorem witness_CmpComparesValues : Inv (tState 0xFFFFFFFF 1 0 0 0) := by decide
theorem witness_AddWrapsWithCarry : Inv (tState 0xFFFFFFFF 1 0 0 0) := by decide
theorem witness_SubWrapsWithBorrow :
    Inv (tState 0xFFFFFFFF 1 0 0 0) ∧ (tState 0xFFFFFFFF 1 0 0 0).reg 2 ≤ (tState 0xFFFFFFFF 1 0 0 0).reg 1 ∧
    (tState 0xFFFFFFFF 1 0 0 0).reg 3 < (tState 0xFFFFFFFF 1 0 0 0).reg 2 := by decide
theorem witness_AdderAndSubtractorLaws : 0xFFFFFFFF < 2 ^ Params.t8.b ∧ 1 < 2 ^ Params.t8.b ∧ (1 : Nat) ≠ 0 := by decide
theorem witness_MulxKeepsWholeProduct : Inv (tState 0xFFFFFFFF 1 0 0 0) ∧ (2 : Reg) ≠ 3 := by decide
theorem witness_MultiplierLaws : 0xFFFFFFFF < 2 ^ Params.t8.b ∧ 1 < 2 ^ Params.t8.b := by decide

/-- A zero and a nonzero divisor, and for `DIVX` a high half below, at and above 0. -/
theorem witness_DivLeavesQuotientAndRemainder :
    (3 : Reg) ≠ 1 ∧ (tState 14 4 0 0 0).reg 2 ≠ 0 ∧ (tState 14 0 0 0 0).reg 2 = 0 := by decide
theorem witness_DivxDividesDoubleWidth :
    Inv (tState 0xFFFFFFFF 4 3 0 0) ∧ (5 : Reg) ≠ 1 ∧ (tState 0xFFFFFFFF 4 3 0 0).reg 2 ≠ 0 ∧
    (tState 0xFFFFFFFF 4 3 0 0).reg 3 < (tState 0xFFFFFFFF 4 3 0 0).reg 2 ∧
    (tState 0xFFFFFFFF 4 3 0 0).reg 4 = 0 := by decide

/-- The true digit is an admissible estimate for every nonzero divisor. -/
theorem witness_LongDivisionEngineIsExact :
    Params.t8.ok ∧ 2 ^ 63 < 2 ^ Params.t8.b * 2 ^ Params.t8.b ∧ 5 < 2 ^ Params.t8.b ∧ (5 : Nat) ≠ 0 ∧
    Admissible Params.t8 (fun a d shf => a / base Params.t8 ^ shf / d) 5 ∧ 2 * Params.t8.n * base Params.t8 ≤ 2048 :=
  ⟨by decide, by decide, by decide, by decide, fun _ _ h _ => ⟨Nat.div_pos h (by decide), le_rfl⟩, by decide⟩

theorem witness_BottomPlusOneIsAdmissible :
    Params.t8.ok ∧ 5 < 2 ^ Params.t8.b ∧ (5 : Nat) ≠ 0 ∧
    5 ≤ 700 / base Params.t8 ^ 0 ∧ 700 < 5 * base Params.t8 ^ (0 + 1) := by decide

/-- A count of 0, of the last bit and of the first that clears everything. -/
theorem witness_ShlMultipliesByPower :
    Inv (tState 0xFFFFFFFF 0 0 0 0) ∧ (31 : Imm).toNat < (tState 0 0 0 0 0).par.b ∧
    (tState 0 0 0 0 0).par.b ≤ (32 : Imm).toNat := by decide
theorem witness_ShrDividesByPower :
    Inv (tState 0xFFFFFFFF 0 0 0 0) ∧ (31 : Imm).toNat < (tState 0 0 0 0 0).par.b ∧
    (tState 0 0 0 0 0).par.b ≤ (32 : Imm).toNat := by decide
theorem witness_ShiftLaws : Params.t8.ok ∧ 0xFFFFFFFF < 2 ^ Params.t8.b ∧ 31 < Params.t8.b := by decide

/-- A nonzero and a zero modulus, and operands on both sides of each case. -/
theorem witness_ModuloCommandsReduceExactly : (tMod 19 100 5).mod ≠ 0 ∧ (tMod 0 100 5).mod = 0 := by decide
theorem witness_ModsubFollowsTwoCases :
    Inv (tMod 19 3 25) ∧ (tMod 19 3 25).mod ≠ 0 ∧ Inv (tMod 0 3 25) ∧ (tMod 0 3 25).mod = 0 ∧
    (tMod 19 25 25).reg 2 ≤ (tMod 19 25 25).reg 1 ∧ ¬(tMod 19 3 25).reg 2 ≤ (tMod 19 3 25).reg 1 := by decide
theorem witness_ReducedOperandsGiveResidues :
    Inv (tMod 19 18 0) ∧ (tMod 19 18 0).reg 1 < (tMod 19 18 0).mod ∧ (tMod 19 18 0).reg 2 < (tMod 19 18 0).mod := by decide
theorem witness_ModpowIsModularPower :
    Inv (tMod 19 3 5) ∧ (tMod 19 3 5).mod ≠ 0 ∧ (tMod 0 3 5).mod = 0 ∧ (tMod 19 3 0).reg 2 = 0 := by decide
theorem witness_ModmulIsMulxThenDivx :
    Inv { tState 13 6 0 0 19 with mod := 19 } ∧ Safe { tState 13 6 0 0 19 with mod := 19 } ∧ (tState 13 6 0 0 19).reg 5 = 19 ∧ (3 : Reg) ≠ 4 ∧ (6 : Reg) ≠ 3 ∧
    (5 : Reg) ≠ 3 ∧ (5 : Reg) ≠ 4 := by decide

/-- The context of 47_montgomery.md R115 and one with `MN = 0`. -/
theorem witness_MtoreprShiftsAndReduces :
    (tMont 7 0 0 0).mn ≠ 0 ∧ (tState 7 0 0 0 0).mn = 0 ∧ (tState 0 0 0 0 0).par.b ≤ (32 : Imm).toNat := by decide
theorem witness_MmulFollowsRedcLines : (tMont 8 9 0 0).mn ≠ 0 ∧ (tState 8 9 0 0 0).mn = 0 := by decide
theorem witness_MpowSquaresAndMultiplies :
    Inv (tMont 8 5 0 0) ∧ (tMont 8 5 0 0).mn ≠ 0 ∧ (tState 8 5 0 0 0).mn = 0 ∧ (tMont 8 0 0 0).reg 2 = 0 := by decide
theorem witness_MontgomeryRoundTrip :
    Inv (tMont 12 0 0 0) ∧ Safe (tMont 12 0 0 0) ∧ GoodContext (tMont 12 0 0 0) ∧ (tMont 12 0 0 0).reg 1 < (tMont 12 0 0 0).mn := by decide

/-- Images 8 and 9 do not meet the corner; 4 and 4 do. -/
theorem witness_MmulIsMontgomeryProduct :
    Inv (tMont 8 9 4 4) ∧ GoodContext (tMont 8 9 4 4) ∧ (tMont 8 9 4 4).reg 1 < 13 ∧ (tMont 8 9 4 4).reg 2 < 13 ∧
    ¬ Corner Params.t8 4 8 9 ∧ Corner Params.t8 4 4 4 := by decide

/-- Base 3 (image 9), exponent 2: no multiplication meets the corner. -/
theorem witness_MpowAgreesWithModpow :
    Inv { tMont 3 2 0 0 with mod := 13 } ∧ Safe { tMont 3 2 0 0 with mod := 13 } ∧ GoodContext { tMont 3 2 0 0 with mod := 13 } ∧
    (tMont 3 2 0 0).mn = 13 ∧ (tMont 3 2 0 0).reg 1 < 13 ∧ (2 : Reg) ≠ 3 ∧
    CornerFree Params.t8 13 11 4 ((tMont 3 2 0 0).reg 2) (2 ^ 4 % 13) (3 * 2 ^ 4 % 13) :=
  ⟨by decide, by decide, by decide, by decide, by decide, by decide,
    .bit 2 _ _ (by decide) (by decide) (by decide)
      (.bit 1 _ _ (by decide) (by decide) (by decide) (.done _ _))⟩

/-- The largest value of T8. -/
theorem witness_LiLoadsValue :
    Inv { State.reset with host := ⟨liScript Params.t8 1 0xFFFFFFFF ++ [.read 1], []⟩ } ∧
    Safe { State.reset with host := ⟨liScript Params.t8 1 0xFFFFFFFF ++ [.read 1], []⟩ } ∧
    0xFFFFFFFF < 2 ^ Params.t8.b := by decide

/-- A run of one addition that meets no fault, one of a division by zero and one of an illegal word that do. -/
theorem witness_ClaimRunTakesFaultOutcome :
    tFaulted.err = .illegal ∧ ({ tFaulted with err := .div0 } : State).err = .div0 ∧
    NoReset (tEvent (cmdLine (.add 3 1 2)) (tState 14 0 0 0 0)) ∧
    (∃ t, run 1 (tEvent (cmdLine (.add 3 1 2)) (tState 14 0 0 0 0)) = .next t ∧ Safe t) ∧
    (∃ t, claimRun 1 (tEvent (cmdLine (.add 3 1 2)) (tState 14 0 0 0 0)) = .next t) ∧
    (∃ t, run 1 (tEvent (cmdLine (.div 3 1 2)) (tState 14 0 0 0 0)) = .next t ∧ t.err = .div0) ∧
    ∃ t, run 1 (tEvent (.write 0 0) (tState 14 0 0 0 0)) = .next t ∧ t.err = .illegal :=
  ⟨rfl, rfl,
    by simp [NoReset, tEvent, cmdLine, State.pushEvent, State.popEvent, tState, State.reset, State.resetAs],
    ⟨_, rfl, by decide⟩, ⟨_, rfl⟩, ⟨_, rfl, by decide⟩, ⟨_, rfl, by decide⟩⟩

theorem witness_ByteImageIsWordsInOrder : 8 ∣ Params.t64.w := by decide

end Sys2Proof.Tests
end

section
/-!
Every step keeps the invariant (O15). The order is: the ranges of the units' results, then one lemma per state update,
then the commands, the port accesses and the step.
-/

namespace Sys2Proof.Machine

/-! ### The units' results fit their registers -/

theorem base_le_limit {p : Params} (hn : 1 ≤ p.n) : base p ≤ limit p := by
  rw [limit_eq_base_pow]
  exact Nat.le_self_pow (by omega) _

theorem wrap_lt (p : Params) (v : Nat) : wrap p v < limit p := Nat.mod_lt _ (limit_pos p)

theorem addUnit_lt (p : Params) (a b : Nat) : (addUnit p a b).1 < limit p := (addUnit_value p a b).2

theorem subUnit_lt (p : Params) (a b : Nat) : (subUnit p a b).1 < limit p := by
  obtain ⟨-, hlt, -⟩ := subUnit_value p a b
  exact hlt

theorem mulLow_lt (p : Params) (a b : Nat) : mulLow p a b < limit p := by
  rw [mulLow_eq]
  exact Nat.mod_lt _ (limit_pos p)

/-- The high half of the product fits a register (43_multiply.md R86). -/
theorem mulWide_div_limit_lt (p : Params) (a b : Nat) : mulWide p a b / limit p < limit p := by
  rw [mulWide_eq]
  exact Nat.div_lt_of_lt_mul (Nat.mul_lt_mul'' (Nat.mod_lt _ (limit_pos p)) (Nat.mod_lt _ (limit_pos p)))

theorem shlUnit_lt {p : Params} (hw : 1 ≤ p.w) (a imm : Nat) : shlUnit p a imm < limit p := by
  rw [shlUnit_eq hw]
  exact Nat.mod_lt _ (limit_pos p)

theorem shrUnit_lt {p : Params} (hw : 1 ≤ p.w) {a : Nat} (ha : a < limit p) (imm : Nat) :
    shrUnit p a imm < limit p := by
  rw [shrUnit_eq hw ha]
  exact Nat.div_lt_of_lt ha

theorem order_le_b {p : Params} (hw : 1 ≤ p.w) {v : Nat} (hv : v < limit p) : order p v ≤ p.b := by
  obtain ⟨hle, -, -⟩ := order_bounds hv
  exact hle.trans (Nat.le_mul_of_pos_left _ hw)

/-- Putting a word `d` in the place of word `j` keeps a value below `2^B` (40_move_convert.md R65). -/
theorem replaceDigit_lt {p : Params} {v d j : Nat} (hv : v < limit p) (hd : d < base p) (hj : j < p.n) :
    v - digit p v j * 2 ^ (p.w * j) + d * 2 ^ (p.w * j) < limit p := by
  obtain ⟨k, hk⟩ := Nat.exists_eq_add_of_lt hj
  have hlim : limit p = base p ^ j * (base p * base p ^ k) := by
    rw [limit_eq_base_pow, hk, pow_succ', pow_add]
    ring
  have hhigh : v / base p ^ j / base p < base p ^ k :=
    Nat.div_lt_of_lt_mul (Nat.div_lt_of_lt_mul (hlim ▸ hv))
  have hlow : v % base p ^ j < base p ^ j := Nat.mod_lt _ (Nat.pow_pos (base_pos p))
  have hsplit : v = base p ^ j * (base p * (v / base p ^ j / base p)) + v % base p ^ j
      + digit p v j * base p ^ j := by
    calc v = base p ^ j * (base p * (v / base p ^ j / base p) + v / base p ^ j % base p) + v % base p ^ j := by
          rw [Nat.div_add_mod, Nat.div_add_mod]
      _ = _ := by rw [digit_eq]; ring
  rw [show 2 ^ (p.w * j) = base p ^ j by rw [base, pow_mul], Nat.sub_eq_of_eq_add hsplit, hlim]
  calc base p ^ j * (base p * (v / base p ^ j / base p)) + v % base p ^ j + d * base p ^ j
      < base p ^ j * (base p * (v / base p ^ j / base p)) + base p ^ j + d * base p ^ j := by omega
    _ = base p ^ j * (base p * (v / base p ^ j / base p) + (d + 1)) := by ring
    _ ≤ base p ^ j * (base p * (v / base p ^ j / base p + 1)) := Nat.mul_le_mul_left _ (by rw [Nat.mul_succ]; omega)
    _ ≤ base p ^ j * (base p * base p ^ k) := Nat.mul_le_mul_left _ (Nat.mul_le_mul_left _ hhigh)

theorem modSub_lt {p : Params} {x : Nat} (hx : x < limit p) (m y : Nat) : modSub p m x y < limit p := by
  rw [modSub]
  split
  · exact (Nat.sub_le x y).trans_lt hx
  · exact wrap_lt _ _

/-- Square-and-multiply stays below any bound that holds for its start value and for every product. -/
theorem powLoop_lt {mul : Nat → Nat → Nat} {bound res : Nat} (hmul : ∀ x y, mul x y < bound) (k len i : Nat)
    (hres : res < bound) (x : Nat) : powLoop mul k len i res x < bound := by
  induction len generalizing i res x with
  | zero => exact hres
  | succ len ih =>
    rw [powLoop]
    apply ih
    split
    · exact hmul _ _
    · exact hres

section Modulus
variable {p : Params} {m : Nat} (hm : m < limit p) (hm0 : m ≠ 0)
include hm hm0

/-- A remainder by a nonzero modulus register fits a register. -/
theorem mod_lt_limit (v : Nat) : v % m < limit p := (Nat.mod_lt v (Nat.pos_of_ne_zero hm0)).trans hm

theorem modPow_lt (x k : Nat) : modPow p m x k < limit p :=
  powLoop_lt (fun _ _ => mod_lt_limit hm hm0 _) _ _ _ (by omega) _

theorem mmul_lt (ninv k a b : Nat) : mmul p m ninv k a b < limit p := by
  rw [mmul]
  split
  · exact limit_pos p
  · exact mod_lt_limit hm hm0 _

theorem mpow_lt (ninv k a e : Nat) : mpow p m ninv k a e < limit p :=
  powLoop_lt (mmul_lt hm hm0 ninv k) _ _ _ (mod_lt_limit hm hm0 _) _

end Modulus

/-! ### What the invariant gives, and the state updates that keep it -/

section Updates
variable {s : State} (h : Inv s)
include h

theorem Inv.par_ok : s.par.ok := h.left

theorem Inv.one_le_w : 1 ≤ s.par.w := h.par_ok.left

theorem Inv.reg_lt (j : Reg) : s.reg j < limit s.par := by
  obtain ⟨-, hreg, -⟩ := h
  exact hreg j

theorem Inv.mod_lt : s.mod < limit s.par := by
  obtain ⟨-, -, hmod, -⟩ := h
  exact hmod

theorem Inv.mn_lt : s.mn < limit s.par := by
  obtain ⟨-, -, -, hmn, -⟩ := h
  exact hmn

theorem Inv.din0_lt : s.din0 < base s.par := by
  obtain ⟨-, -, -, -, -, hdin0, -⟩ := h
  exact hdin0

theorem Inv.din0_lt_limit : s.din0 < limit s.par := by
  obtain ⟨-, hn, -⟩ := h.par_ok
  exact h.din0_lt.trans_le (base_le_limit hn)

theorem Inv.eq_lt_exclusive : ¬(s.flags.eq = true ∧ s.flags.lt = true) := by
  obtain ⟨-, -, -, -, -, -, -, -, -, -, hflags, -⟩ := h
  exact hflags

theorem Inv.setReg (d : Reg) {v : Nat} (hv : v < limit s.par) : Inv (s.setReg d v) := by
  obtain ⟨hpar, hreg, hrest⟩ := h
  refine ⟨hpar, fun j => ?_, hrest⟩
  rw [State.reg_setReg]
  split
  · exact hv
  · exact hreg j

theorem Inv.setMod {v : Nat} (hv : v < limit s.par) : Inv { s with mod := v } := by
  obtain ⟨hpar, hreg, -, hrest⟩ := h
  exact ⟨hpar, hreg, hv, hrest⟩

theorem Inv.setMont {n ninv : Nat} (hn : n < limit s.par) (hninv : ninv < limit s.par) (k : BitVec 16) :
    Inv { s with mn := n, mninv := ninv, mkWidth := k } := by
  obtain ⟨hpar, hreg, hmod, -, -, hrest⟩ := h
  exact ⟨hpar, hreg, hmod, hn, hninv, hrest⟩

theorem Inv.writeDin0 (v : Nat) : Inv (s.writeDin0 v) := by
  obtain ⟨hpar, hreg, hmod, hmn, hninv, -, hrest⟩ := h
  exact ⟨hpar, hreg, hmod, hmn, hninv, Nat.mod_lt _ (base_pos _), hrest⟩

theorem Inv.writeDin1 (v : Nat) : Inv (s.writeDin1 v) := by
  obtain ⟨hpar, hreg, hmod, hmn, hninv, hdin0, -, hrest⟩ := h
  exact ⟨hpar, hreg, hmod, hmn, hninv, hdin0, Nat.mod_lt _ (base_pos _), hrest⟩

theorem Inv.setDout0 {v : Nat} (hv : v < base s.par) : Inv { s with dout0 := v } := by
  obtain ⟨hpar, hreg, hmod, hmn, hninv, hdin0, hdin1, -, hrest⟩ := h
  exact ⟨hpar, hreg, hmod, hmn, hninv, hdin0, hdin1, hv, hrest⟩

theorem Inv.setDout1 {v : Nat} (hv : v < base s.par) : Inv { s with dout1 := v } := by
  obtain ⟨hpar, hreg, hmod, hmn, hninv, hdin0, hdin1, hdout0, -, hrest⟩ := h
  exact ⟨hpar, hreg, hmod, hmn, hninv, hdin0, hdin1, hdout0, hv, hrest⟩

theorem Inv.setSr {v : Nat} (hv : v ≤ s.par.b) : Inv { s with sr := BitVec.ofNat 32 v } := by
  obtain ⟨hpar, hreg, hmod, hmn, hninv, hdin0, hdin1, hdout0, hdout1, -, hrest⟩ := h
  have hsr : (BitVec.ofNat 32 v).toNat ≤ s.par.b := (BitVec.toNat_ofNat .. ▸ Nat.mod_le _ _).trans hv
  exact ⟨hpar, hreg, hmod, hmn, hninv, hdin0, hdin1, hdout0, hdout1, hsr, hrest⟩

/-- `T` and `CY` are free; `EQ` and `LT` may not both be 1. -/
theorem Inv.setFlags {f : Flags} (hf : ¬(f.eq = true ∧ f.lt = true)) : Inv { s with flags := f } := by
  obtain ⟨hpar, hreg, hmod, hmn, hninv, hdin0, hdin1, hdout0, hdout1, hsr, -, herr⟩ := h
  exact ⟨hpar, hreg, hmod, hmn, hninv, hdin0, hdin1, hdout0, hdout1, hsr, hf, herr⟩

theorem Inv.setT (b : Bool) : Inv (s.setT b) := h.setFlags h.eq_lt_exclusive

theorem Inv.setCY (b : Bool) : Inv (s.setCY b) := h.setFlags h.eq_lt_exclusive

/-- A comparison never finds two values both equal and in order (41_tracker_tests.md R76). -/
theorem Inv.setCmp (a b : Nat) : Inv (s.setCmp a b) :=
  h.setFlags (by simp only [decide_eq_true_eq]; omega)

theorem Inv.setFault (code : ErrCode) (hcode : code ≠ .none) (cmd : Cmd) :
    Inv { s with err := code, ecmd := cmd } := by
  obtain ⟨hpar, hreg, hmod, hmn, hninv, hdin0, hdin1, hdout0, hdout1, hsr, hflags, -⟩ := h
  exact ⟨hpar, hreg, hmod, hmn, hninv, hdin0, hdin1, hdout0, hdout1, hsr, hflags, fun he => absurd he hcode⟩

/-- The host's side is no part of the invariant. -/
theorem Inv.setHost (host : HostSide) : Inv { s with host := host } := h

end Updates

/-- A reset meets the invariant, whatever the registers come up with (10_state.md R23). -/
theorem inv_resetAs {p : Params} (hp : p.ok) (content : ResetContent) (host : HostSide) :
    Inv (State.resetAs p content host) := by
  have hlim (v : Nat) : v % 2 ^ p.b < limit p := Nat.mod_lt _ (limit_pos p)
  refine ⟨hp, fun j => ?_, hlim _, hlim _, hlim _, base_pos p, base_pos p, base_pos p, base_pos p, Nat.zero_le _,
    fun hf => Bool.false_ne_true hf.left, fun _ => rfl⟩
  rw [State.reg_resetAs]
  exact hlim _

/-! ### The commands -/

/-- If the result is a next state, that state meets the invariant. -/
def NextMeetsInv (r : Result) : Prop := ∀ t, r = .next t → Inv t

theorem NextMeetsInv.next {t : State} (h : Inv t) : NextMeetsInv (.next t) := by
  rintro _ ⟨⟩
  exact h

theorem NextMeetsInv.raiseIllegal {s : State} (h : Inv s) (i : Instr) : NextMeetsInv (raiseIllegal i s) :=
  .next (h.setFault .illegal nofun _)

theorem NextMeetsInv.unlessZero {s go : State} {d : Nat} (h : Inv s) (i : Instr) (hgo : d ≠ 0 → Inv go) :
    NextMeetsInv (unlessZero d i s go) := by
  intro t ht
  rcases unlessZero_cases ht with ⟨-, rfl⟩ | ⟨hd, rfl⟩
  · exact h.setFault .div0 nofun _
  · exact hgo hd

/-- Steps 4 and 5 of 30_encoding.md R45: ILLEGAL when the check `c` fails, else the rest of the command. -/
theorem NextMeetsInv.ite_illegal {c : Prop} [Decidable c] {s : State} {go : Result} (h : Inv s) (i : Instr)
    (hgo : ¬c → NextMeetsInv go) : NextMeetsInv (if c then Machine.raiseIllegal i s else go) := by
  split
  · exact .raiseIllegal h i
  · next hc => exact hgo hc

/-- No command leaves the invariant. Every multi-word result is one of a unit above, a remainder by a nonzero divisor
or a value cut to `B` bits; the rest of the state changes by the updates above. -/
theorem nextMeetsInv_exec {s : State} (h : Inv s) (i : Instr) : NextMeetsInv (exec i s) := by
  cases i with
  | mov rd ra => exact .next (h.setReg rd (h.reg_lt ra))
  | setw rd => exact .next (h.setReg rd h.din0_lt_limit)
  | setdw rd => exact .next (h.setReg rd (wrap_lt _ _))
  | getw ra => exact .next (h.setDout0 (Nat.mod_lt _ (base_pos _)))
  | getdw ra => exact .next ((h.setDout0 (digit_lt _ _ 0)).setDout1 (digit_lt _ _ 1))
  | ldw rx imm =>
    exact .ite_illegal h _ fun hidx => .next (h.setReg rx (replaceDigit_lt (h.reg_lt rx) h.din0_lt (by omega)))
  | stw ra imm => exact .ite_illegal h _ fun _ => .next (h.setDout0 (digit_lt _ _ _))
  | iszero ra => exact .next (h.setT _)
  | isodd ra => exact .next (h.setT _)
  | iseven ra => exact .next (h.setT _)
  | order ra => exact .next (h.setSr (order_le_b h.one_le_w (h.reg_lt ra)))
  | bitlen ra => exact .next (h.setSr (bitlen_bounds (h.reg_lt ra)).left)
  | getbit ra imm => exact .next (h.setT _)
  | cmp ra rb => exact .next (h.setCmp _ _)
  | add rd ra rb => exact .next ((h.setReg rd (addUnit_lt _ _ _)).setCY _)
  | sub rd ra rb => exact .next ((h.setReg rd (subUnit_lt _ _ _)).setCY _)
  | mul rd ra rb => exact .next (h.setReg rd (mulLow_lt _ _ _))
  | mulx rd ra rb rc =>
    exact .ite_illegal h _ fun _ =>
      .next ((h.setReg rd (wrap_lt _ _)).setReg rc (mulWide_div_limit_lt _ _ _))
  | div rd ra rb =>
    exact .ite_illegal h _ fun _ => .unlessZero h _ fun hd =>
      (h.setReg ra (mod_lt_limit (h.reg_lt rb) hd _)).setReg rd (Nat.div_lt_of_lt (h.reg_lt ra))
  | divx rd ra rb rc =>
    exact .ite_illegal h _ fun _ => .unlessZero h _ fun hd =>
      (h.setReg ra (mod_lt_limit (h.reg_lt rb) hd _)).setReg rd (wrap_lt _ _)
  | shl rx ra imm => exact .next (h.setReg rx (shlUnit_lt h.one_le_w _ _))
  | shr rx ra imm => exact .next (h.setReg rx (shrUnit_lt h.one_le_w (h.reg_lt ra) _))
  | setmod ra => exact .next (h.setMod (h.reg_lt ra))
  | modnorm ra => exact .unlessZero h _ fun hd => h.setReg ra (mod_lt_limit h.mod_lt hd _)
  | modadd rd ra rb => exact .unlessZero h _ fun hd => h.setReg rd (mod_lt_limit h.mod_lt hd _)
  | modsub rd ra rb => exact .unlessZero h _ fun _ => h.setReg rd (modSub_lt (h.reg_lt ra) _ _)
  | modmul rd ra rb => exact .unlessZero h _ fun hd => h.setReg rd (mod_lt_limit h.mod_lt hd _)
  | modpow rd ra rb => exact .unlessZero h _ fun hd => h.setReg rd (modPow_lt h.mod_lt hd _ _)
  | msetup rx ra imm => exact .next (h.setMont (h.reg_lt ra) (h.reg_lt rx) imm)
  | mtorepr rd ra => exact .unlessZero h _ fun hd => h.setReg rd (mod_lt_limit h.mn_lt hd _)
  | mfromrepr rd ra => exact .unlessZero h _ fun hd => h.setReg rd (mmul_lt h.mn_lt hd _ _ _ _)
  | mmul rd ra rb => exact .unlessZero h _ fun hd => h.setReg rd (mmul_lt h.mn_lt hd _ _ _ _)
  | mpow rd ra rb => exact .unlessZero h _ fun hd => h.setReg rd (mpow_lt h.mn_lt hd _ _ _ _)

/-! ### The port accesses and the step -/

theorem inv_of_writeCmd {s t : State} {cmd : Cmd} (h : Inv s) (ht : writeCmd cmd s = .next t) : Inv t := by
  rcases writeCmd_cases ht with ⟨-, rfl⟩ | ⟨-, -, rfl⟩ | ⟨-, i, -, hi⟩
  · exact h
  · exact h.setFault .illegal nofun cmd
  · exact nextMeetsInv_exec h i t hi

theorem inv_of_portWrite {s t : State} {p v : Nat} (h : Inv s) (ht : portWrite p v s = .next t) : Inv t := by
  rcases portWrite_cases ht with ⟨-, hcmd⟩ | ⟨-, rfl⟩ | ⟨-, rfl⟩ | ⟨-, rfl⟩
  · exact inv_of_writeCmd h hcmd
  · exact h.writeDin0 v
  · exact h.writeDin1 v
  · exact h

theorem inv_of_takeEvent {s t : State} {e : HostEvent} (h : Inv s) (ht : takeEvent e s = .next t) : Inv t := by
  cases e with
  | read p =>
    obtain ⟨v, -, rfl⟩ := portRead_cases ht
    exact h.setHost _
  | write p v => exact inv_of_portWrite h ht
  | reset content => exact NextMeetsInv.next (inv_resetAs h.par_ok content s.host) t ht

theorem inv_of_step {s t : State} (h : Inv s) (ht : step s = .next t) : Inv t := by
  rcases step_cases ht with ⟨-, rfl⟩ | ⟨e, rest, -, he⟩
  · exact h
  · exact inv_of_takeEvent (h.setHost _) he

/-- Settles O15: an event changes the state by the updates above, and a command writes only values that fit. -/
theorem stepKeepsInv : Obligations.StepKeepsInv := fun _ _ h ht => inv_of_step h ht

end Sys2Proof.Machine
end

section
/-!
A command as assignments. A command that passes its checks writes a list of values into the parts of the state that its
row of the access table names (10_state.md R24, column W), and the values depend on the parts of column R alone. What
`exec` can do is said once here: the ILLEGAL record, the DIV0 record, or the command's assignments.
-/

namespace Sys2Proof.Machine

/-! ### Agreement in one part -/

@[simp] theorem Part.agree_reg {r : Reg} {s u : State} : (Part.reg r).Agree s u ↔ s.reg r = u.reg r := Iff.rfl
@[simp] theorem Part.agree_mod {s u : State} : Part.mod.Agree s u ↔ s.mod = u.mod := Iff.rfl
@[simp] theorem Part.agree_mont {s u : State} :
    Part.mont.Agree s u ↔ s.mn = u.mn ∧ s.mninv = u.mninv ∧ s.mkWidth = u.mkWidth := Iff.rfl
@[simp] theorem Part.agree_din0 {s u : State} : Part.din0.Agree s u ↔ s.din0 = u.din0 := Iff.rfl
@[simp] theorem Part.agree_din1 {s u : State} : Part.din1.Agree s u ↔ s.din1 = u.din1 := Iff.rfl
@[simp] theorem Part.agree_dout0 {s u : State} : Part.dout0.Agree s u ↔ s.dout0 = u.dout0 := Iff.rfl
@[simp] theorem Part.agree_dout1 {s u : State} : Part.dout1.Agree s u ↔ s.dout1 = u.dout1 := Iff.rfl
@[simp] theorem Part.agree_sr {s u : State} : Part.sr.Agree s u ↔ s.sr = u.sr := Iff.rfl
@[simp] theorem Part.agree_flagT {s u : State} : Part.flagT.Agree s u ↔ s.flags.t = u.flags.t := Iff.rfl
@[simp] theorem Part.agree_flagCmp {s u : State} :
    Part.flagCmp.Agree s u ↔ s.flags.eq = u.flags.eq ∧ s.flags.lt = u.flags.lt := Iff.rfl
@[simp] theorem Part.agree_flagCY {s u : State} : Part.flagCY.Agree s u ↔ s.flags.cy = u.flags.cy := Iff.rfl

theorem Part.agree_refl (q : Part) (s : State) : q.Agree s s := by cases q <;> simp

theorem Part.Agree.trans {q : Part} {s t u : State} (hst : q.Agree s t) (htu : q.Agree t u) : q.Agree s u := by
  cases q <;> simp_all

theorem Part.Agree.symm {q : Part} {s u : State} (h : q.Agree s u) : q.Agree u s := by
  cases q <;> simp_all

/-- The fault record is no part of the access table. -/
theorem Part.agree_faultRecord (q : Part) (s : State) (code : ErrCode) (cmd : Cmd) :
    q.Agree { s with err := code, ecmd := cmd } s := q.agree_refl s

/-! ### Assignments -/

/-- One write of a command: the part it goes to and what is written there. -/
inductive Assign where
  | reg (d : Reg) (v : Nat)
  | mod (v : Nat)
  | mont (n ninv : Nat) (k : Imm)
  | dout0 (v : Nat)
  | dout1 (v : Nat)
  | sr (v : BitVec 32)
  | flagT (b : Bool)
  /-- the flags of the comparison of `a` with `b` -/
  | flagCmp (a b : Nat)
  | flagCY (b : Bool)

/-- The entry of the W column an assignment belongs to. -/
def Assign.part : Assign → Part
  | .reg d _ => .reg d
  | .mod _ => .mod
  | .mont _ _ _ => .mont
  | .dout0 _ => .dout0
  | .dout1 _ => .dout1
  | .sr _ => .sr
  | .flagT _ => .flagT
  | .flagCmp _ _ => .flagCmp
  | .flagCY _ => .flagCY

/-- The state after one assignment. -/
def State.assign (s : State) : Assign → State
  | .reg d v => s.setReg d v
  | .mod v => { s with mod := v }
  | .mont n ninv k => { s with mn := n, mninv := ninv, mkWidth := k }
  | .dout0 v => { s with dout0 := v }
  | .dout1 v => { s with dout1 := v }
  | .sr v => { s with sr := v }
  | .flagT b => s.setT b
  | .flagCmp a b => s.setCmp a b
  | .flagCY b => s.setCY b

/-- The state after a list of assignments, the first one first. -/
def State.assignAll (s : State) (as : List Assign) : State := as.foldl State.assign s

theorem State.assignAll_cons (s : State) (a : Assign) (as : List Assign) :
    s.assignAll (a :: as) = (s.assign a).assignAll as := rfl

/-- An assignment leaves every other part alone. -/
theorem State.agree_assign_of_ne {q : Part} {a : Assign} (h : q ≠ a.part) (s : State) : q.Agree (s.assign a) s := by
  cases a with
  | reg d v =>
    cases q with
    | reg r => exact s.reg_setReg_of_ne v fun hr => h (congrArg Part.reg hr)
    | _ => simp [State.assign]
  | _ => cases q <;> simp_all [State.assign, Assign.part, State.reg]

/-- After one assignment two states agree in the part assigned and wherever they agreed before. -/
theorem State.agree_assign {q : Part} {a : Assign} {s u : State} (h : q.Agree s u ∨ q = a.part) :
    q.Agree (s.assign a) (u.assign a) := by
  by_cases hq : q = a.part
  · subst hq
    cases a <;> simp [State.assign, Assign.part]
  · have hsu : q.Agree s u := h.resolve_right hq
    exact ((s.agree_assign_of_ne hq).trans hsu).trans (u.agree_assign_of_ne hq).symm

/-- No assignment reaches the build, the host's side or the fault record. -/
theorem State.assign_keeps (s : State) (a : Assign) :
    (s.assign a).par = s.par ∧ (s.assign a).host = s.host ∧
      (s.assign a).err = s.err ∧ (s.assign a).ecmd = s.ecmd := by
  cases a <;> exact ⟨rfl, rfl, rfl, rfl⟩

theorem State.agree_assignAll_of_notMem {q : Part} {as : List Assign} (h : q ∉ as.map Assign.part) (s : State) :
    q.Agree (s.assignAll as) s := by
  induction as generalizing s with
  | nil => exact q.agree_refl s
  | cons a as ih =>
    rw [List.map_cons, List.mem_cons, not_or] at h
    obtain ⟨hne, hmem⟩ := h
    exact (ih hmem (s.assign a)).trans (s.agree_assign_of_ne hne)

theorem State.agree_assignAll {q : Part} {as : List Assign} {s u : State}
    (h : q.Agree s u ∨ q ∈ as.map Assign.part) : q.Agree (s.assignAll as) (u.assignAll as) := by
  induction as generalizing s u with
  | nil => exact h.resolve_right List.not_mem_nil
  | cons a as ih =>
    rw [List.map_cons, List.mem_cons, ← or_assoc] at h
    exact ih (h.imp_left State.agree_assign)

theorem State.assignAll_keeps (s : State) (as : List Assign) :
    (s.assignAll as).par = s.par ∧ (s.assignAll as).host = s.host ∧
      (s.assignAll as).err = s.err ∧ (s.assignAll as).ecmd = s.ecmd := by
  induction as generalizing s with
  | nil => exact ⟨rfl, rfl, rfl, rfl⟩
  | cons a as ih =>
    rw [State.assignAll_cons]
    obtain ⟨hpar, hhost, herr, hecmd⟩ := ih (s.assign a)
    obtain ⟨hpar', hhost', herr', hecmd'⟩ := s.assign_keeps a
    exact ⟨hpar.trans hpar', hhost.trans hhost', herr.trans herr', hecmd.trans hecmd'⟩

/-! ### What a command assigns -/

/-- The writes of a command that passes its checks. -/
def assigns (i : Instr) (s : State) : List Assign :=
  match i with
  | .mov rd ra => [.reg rd (s.reg ra)]
  | .setw rd => [.reg rd s.din0]
  | .setdw rd => [.reg rd (wrap s.par s.dinPair)]
  | .getw ra => [.dout0 (s.reg ra % base s.par)]
  | .getdw ra => [.dout0 (digit s.par (s.reg ra) 0), .dout1 (digit s.par (s.reg ra) 1)]
  | .ldw rx imm =>
    [.reg rx (s.reg rx - digit s.par (s.reg rx) imm.toNat * 2 ^ (s.par.w * imm.toNat)
      + s.din0 * 2 ^ (s.par.w * imm.toNat))]
  | .stw ra imm => [.dout0 (digit s.par (s.reg ra) imm.toNat)]
  | .iszero ra => [.flagT (decide (s.reg ra = 0))]
  | .isodd ra => [.flagT (decide (s.reg ra % 2 = 1))]
  | .iseven ra => [.flagT (decide (s.reg ra % 2 = 0))]
  | .order ra => [.sr (BitVec.ofNat 32 (order s.par (s.reg ra)))]
  | .bitlen ra => [.sr (BitVec.ofNat 32 (bitlen s.par (s.reg ra)))]
  | .getbit ra imm => [.flagT (getBit s.par (s.reg ra) imm.toNat)]
  | .cmp ra rb => [.flagCmp (s.reg ra) (s.reg rb)]
  | .add rd ra rb =>
    let out := addUnit s.par (s.reg ra) (s.reg rb)
    [.reg rd out.1, .flagCY (decide (out.2 = 1))]
  | .sub rd ra rb =>
    let out := subUnit s.par (s.reg ra) (s.reg rb)
    [.reg rd out.1, .flagCY (decide (out.2 = 1))]
  | .mul rd ra rb => [.reg rd (mulLow s.par (s.reg ra) (s.reg rb))]
  | .mulx rd ra rb rc =>
    let product := mulWide s.par (s.reg ra) (s.reg rb)
    [.reg rd (product % limit s.par), .reg rc (product / limit s.par)]
  | .div rd ra rb => [.reg ra (s.reg ra % s.reg rb), .reg rd (s.reg ra / s.reg rb)]
  | .divx rd ra rb rc =>
    let dividend := s.reg rc * limit s.par + s.reg ra
    [.reg ra (dividend % s.reg rb), .reg rd (wrap s.par (dividend / s.reg rb))]
  | .shl rx ra imm => [.reg rx (shlUnit s.par (s.reg ra) imm.toNat)]
  | .shr rx ra imm => [.reg rx (shrUnit s.par (s.reg ra) imm.toNat)]
  | .setmod ra => [.mod (s.reg ra)]
  | .modnorm ra => [.reg ra (s.reg ra % s.mod)]
  | .modadd rd ra rb => [.reg rd ((s.reg ra + s.reg rb) % s.mod)]
  | .modsub rd ra rb => [.reg rd (modSub s.par s.mod (s.reg ra) (s.reg rb))]
  | .modmul rd ra rb => [.reg rd (mulMod s.mod (s.reg ra) (s.reg rb))]
  | .modpow rd ra rb => [.reg rd (modPow s.par s.mod (s.reg ra) (s.reg rb))]
  | .msetup rx ra imm => [.mont (s.reg ra) (s.reg rx) imm]
  | .mtorepr rd ra => [.reg rd (toRepr s.par s.mn s.mkWidth.toNat (s.reg ra))]
  | .mfromrepr rd ra => [.reg rd (s.mmul (s.reg ra) 1)]
  | .mmul rd ra rb => [.reg rd (s.mmul (s.reg ra) (s.reg rb))]
  | .mpow rd ra rb => [.reg rd (mpow s.par s.mn s.mninv s.mkWidth.toNat (s.reg ra) (s.reg rb))]

/-- A command assigns exactly the parts of its W column, in the column's order (10_state.md R24). -/
theorem map_part_assigns (i : Instr) (s : State) : (assigns i s).map Assign.part = writes i := by cases i <;> rfl

/-! ### What a command does -/

@[simp] theorem wellFormed_ldw {n : Nat} {rx : Reg} {imm : Imm} :
    (Instr.ldw rx imm).wellFormed n ↔ imm.toNat < n := by simp [Instr.wellFormed, Instr.staticCheck]
@[simp] theorem wellFormed_stw {n : Nat} {ra : Reg} {imm : Imm} :
    (Instr.stw ra imm).wellFormed n ↔ imm.toNat < n := by simp [Instr.wellFormed, Instr.staticCheck]
@[simp] theorem wellFormed_mulx {n : Nat} {rd ra rb rc : Reg} :
    (Instr.mulx rd ra rb rc).wellFormed n ↔ rd ≠ rc := by simp [Instr.wellFormed, Instr.staticCheck]
@[simp] theorem wellFormed_div {n : Nat} {rd ra rb : Reg} :
    (Instr.div rd ra rb).wellFormed n ↔ rd ≠ ra := by simp [Instr.wellFormed, Instr.staticCheck]
@[simp] theorem wellFormed_divx {n : Nat} {rd ra rb rc : Reg} :
    (Instr.divx rd ra rb rc).wellFormed n ↔ rd ≠ ra := by simp [Instr.wellFormed, Instr.staticCheck]

/-- The command's ILLEGAL record, when a static check fails (30_encoding.md R45 steps 4 and 5). -/
theorem exec_of_not_wellFormed {i : Instr} {s : State} (h : ¬ i.wellFormed s.par.n) :
    exec i s = .next { s with err := .illegal, ecmd := encode i } := by
  cases i with
  | ldw | stw | mulx | div | divx => exact if_pos (by simpa using h)
  | _ => exact absurd rfl h

/-- The command's DIV0 record, when only the divisor check fails (30_encoding.md R45 step 6). -/
theorem exec_of_zeroDivisor {i : Instr} {s : State} (hwf : i.wellFormed s.par.n) (hz : zeroDivisor i s) :
    exec i s = .next { s with err := .div0, ecmd := encode i } := by
  cases i with
  | div | divx => exact (if_neg (by simpa using hwf)).trans (if_pos hz)
  | modnorm | modadd | modsub | modmul | modpow | mtorepr | mfromrepr | mmul | mpow => exact if_pos hz
  | _ => exact False.elim hz

/-- The command's assignments, when no check fails (30_encoding.md R45 step 7). -/
theorem exec_of_passes {i : Instr} {s : State} (hwf : i.wellFormed s.par.n) (hz : ¬ zeroDivisor i s) :
    exec i s = .next (s.assignAll (assigns i s)) := by
  cases i with
  | ldw | stw | mulx => exact if_neg (by simpa using hwf)
  | div | divx => exact (if_neg (by simpa using hwf)).trans (if_neg hz)
  | modnorm | modadd | modsub | modmul | modpow | mtorepr | mfromrepr | mmul | mpow => exact if_neg hz
  | _ => rfl

/-- Everything a command can do. -/
theorem exec_cases {i : Instr} {s t : State} (h : exec i s = .next t) :
    (¬ i.wellFormed s.par.n ∧ t = { s with err := .illegal, ecmd := encode i }) ∨
    (i.wellFormed s.par.n ∧ zeroDivisor i s ∧ t = { s with err := .div0, ecmd := encode i }) ∨
    (i.wellFormed s.par.n ∧ ¬ zeroDivisor i s ∧ t = s.assignAll (assigns i s)) := by
  by_cases hwf : i.wellFormed s.par.n
  · by_cases hz : zeroDivisor i s
    · rw [exec_of_zeroDivisor hwf hz] at h
      exact .inr (.inl ⟨hwf, hz, by injection h with h; exact h.symm⟩)
    · rw [exec_of_passes hwf hz] at h
      exact .inr (.inr ⟨hwf, hz, by injection h with h; exact h.symm⟩)
  · rw [exec_of_not_wellFormed hwf] at h
    exact .inl ⟨hwf, by injection h with h; exact h.symm⟩

/-! ### What the assignments depend on -/

section Reads
variable {i : Instr} {s u : State} (h : ∀ q ∈ reads i, q.Agree s u)
include h

/-- The divisor of a command is among the parts it reads. -/
theorem zeroDivisor_congr : zeroDivisor i s ↔ zeroDivisor i u := by
  cases i <;> simp_all [reads, zeroDivisor]

/-- The values a command assigns come from the build and the parts of its R column (10_state.md R24). -/
theorem assigns_congr (hpar : s.par = u.par) : assigns i s = assigns i u := by
  cases i <;> simp_all [reads, assigns, State.dinPair, State.mmul]

end Reads

end Sys2Proof.Machine
end

section
/-!
The family of 10_state.md: a command's row of the access table (O20, O21) and the state after reset (O13, O14).
-/

namespace Sys2Proof.Machine

/-- Settles O20: a command assigns the parts of its W column and nothing else; a fault writes the record alone. -/
theorem commandWritesOnlyItsRow : Obligations.CommandWritesOnlyItsRow := by
  intro i s t ht
  rcases exec_cases ht with ⟨hwf, rfl⟩ | ⟨-, hz, rfl⟩ | ⟨-, -, rfl⟩
  · exact ⟨rfl, rfl, fun q _ => q.agree_faultRecord s _ _, fun h => absurd h hwf⟩
  · exact ⟨rfl, rfl, fun q _ => q.agree_faultRecord s _ _, fun _ h => absurd hz h⟩
  · obtain ⟨hpar, hhost, herr, hecmd⟩ := s.assignAll_keeps (assigns i s)
    refine ⟨hpar, hhost, fun q hq => s.agree_assignAll_of_notMem ?_, fun _ _ => ⟨herr, hecmd⟩⟩
    rwa [map_part_assigns]

/-- Settles O21: the checks and the values assigned are functions of the build and the R column. -/
theorem commandReadsOnlyItsRow : Obligations.CommandReadsOnlyItsRow := by
  intro i s u t v hpar hs hu hreads ht hv
  rcases exec_cases ht with ⟨hwf, rfl⟩ | ⟨hwf, hz, rfl⟩ | ⟨hwf, hz, rfl⟩ <;> rw [hpar] at hwf
  · rw [exec_of_not_wellFormed hwf] at hv
    obtain rfl := Host.Outcome.next.inj hv
    exact ⟨rfl, nofun⟩
  · rw [exec_of_zeroDivisor hwf ((zeroDivisor_congr hreads).mp hz)] at hv
    obtain rfl := Host.Outcome.next.inj hv
    exact ⟨rfl, nofun⟩
  · rw [exec_of_passes hwf (mt (zeroDivisor_congr hreads).mpr hz), ← assigns_congr hreads hpar] at hv
    obtain rfl := Host.Outcome.next.inj hv
    obtain ⟨-, -, herr, -⟩ := s.assignAll_keeps (assigns i s)
    obtain ⟨-, -, herr', -⟩ := u.assignAll_keeps (assigns i s)
    refine ⟨by rw [herr, herr', hs, hu], fun _ q hq => State.agree_assignAll (.inr ?_)⟩
    rwa [map_part_assigns]

/-- Settles O13: the reset event gives `State.resetAs`, whose contents are the event's, cut to `B` bits. -/
theorem resetLeavesScalarsZero : Obligations.ResetLeavesScalarsZero := by
  intro s c rest hscript
  refine ⟨_, step_of_script_cons hscript, rfl, rfl, rfl, rfl, rfl, rfl, rfl, rfl, rfl, fun j hj => ?_,
    Nat.mod_eq_of_lt, Nat.mod_eq_of_lt, Nat.mod_eq_of_lt, rfl, rfl⟩
  exact (State.reg_resetAs _ c _ j).trans (Nat.mod_eq_of_lt hj)

/-- Settles O14: every reset of a possible build meets the invariant, and T8 is one. -/
theorem resetMeetsInv : Obligations.ResetMeetsInv :=
  ⟨inv_resetAs (by decide) _ _, fun _ content host hp => inv_resetAs hp content host⟩

end Sys2Proof.Machine
end

section
/-!
The family of 20_memory.md: what an access to each port does (O10, O11), what the ports hide (O22), and the byte image
of a value (O59).
-/

namespace Sys2Proof.Machine

/-! ### Single port accesses -/

/-- The ports with a value are those of the port table, index 0 to 8 (20_memory.md R31). -/
theorem State.exists_portValue {p : Nat} (hp : p ≤ 8) (s : State) : ∃ x, s.portValue p = some x := by
  interval_cases p <;> exact ⟨_, rfl⟩

theorem portRead_of_portValue {s : State} {p x : Nat} (h : s.portValue p = some x) :
    portRead p s = .next { s with host := { s.host with seen := (p, x) :: s.host.seen } } := by
  simp [portRead, h]

/-- A read of a port with a value gives the host that value and takes the read off its list. -/
theorem step_of_read {s : State} {p x : Nat} {rest : List HostEvent} (hs : s.host.script = .read p :: rest)
    (hx : s.portValue p = some x) : step s = .next { s with host := ⟨rest, (p, x) :: s.host.seen⟩ } :=
  (step_of_script_cons hs).trans (portRead_of_portValue (s := s.popEvent rest) hx)

/-- The four flags are the bits 3 to 0 of the value of port `FLAGS` (20_memory.md R31). -/
theorem Flags.toNat_eq (f : Flags) :
    f.toNat = (if f.cy then 8 else 0) + (if f.lt then 4 else 0) + (if f.eq then 2 else 0) + (if f.t then 1 else 0) := by
  simp only [Flags.toNat, flagBit, mul_ite, mul_one, mul_zero]

/-- A write to a read-only port is ignored (20_memory.md R31). -/
theorem portWrite_of_readOnly {p : Nat} (hp : p = 1 ∨ p = 2 ∨ p = 3 ∨ p = 6 ∨ p = 7 ∨ p = 8) (v : Nat) (s : State) :
    portWrite p v s = .next s := by
  rcases hp with rfl | rfl | rfl | rfl | rfl | rfl <;> rfl

/-- Settles O10: each of the nine ports has a value, and a read hands it to the host. -/
theorem portReadsFollowTable : Obligations.PortReadsFollowTable := by
  intro s p rest hs hp
  obtain ⟨x, hx⟩ := s.exists_portValue hp
  refine ⟨x, step_of_read hs hx, ?_, ?err, ?flags, ?_, ?_, ?_, ?_, ?_, ?_⟩ <;> rintro rfl <;>
    obtain rfl := Option.some.inj hx
  case err => cases s.err <;> rfl
  case flags => exact s.flags.toNat_eq
  all_goals rfl

/-- Settles O11: `DIN0` and `DIN1` are the two ports of index 1 to 8 that a write reaches. -/
theorem portWritesFollowTable : Obligations.PortWritesFollowTable := by
  intro s p v rest hs h1 h8
  rw [step_of_script_cons hs]
  refine ⟨?_, ?_, fun h4 h5 => ?_⟩
  · rintro rfl
    rfl
  · rintro rfl
    rfl
  · exact portWrite_of_readOnly (by omega) v _

/-! ### The events to come, and runs -/

/-- No command reaches the host's side. -/
theorem writeCmd_host {s t : State} {cmd : Cmd} (h : writeCmd cmd s = .next t) : t.host = s.host := by
  rcases writeCmd_cases h with ⟨-, rfl⟩ | ⟨-, -, rfl⟩ | ⟨-, i, -, hi⟩
  · rfl
  · rfl
  · obtain ⟨-, hhost, -⟩ := commandWritesOnlyItsRow i s t hi
    exact hhost

/-- Taking an event leaves the events still to come as they are. -/
theorem takeEvent_script {e : HostEvent} {s t : State} (h : takeEvent e s = .next t) :
    t.host.script = s.host.script := by
  cases e with
  | read p =>
    obtain ⟨x, -, rfl⟩ := portRead_cases h
    rfl
  | write p v =>
    rcases portWrite_cases h with ⟨-, hcmd⟩ | ⟨-, rfl⟩ | ⟨-, rfl⟩ | ⟨-, rfl⟩
    · rw [writeCmd_host hcmd]
    all_goals rfl
  | reset content =>
    obtain rfl := Host.Outcome.next.inj h
    rfl

/-- A step takes the first pending event off the host's list, if there is one. -/
theorem step_script {s t : State} (h : step s = .next t) : t.host.script = s.host.script.tail := by
  rcases step_cases h with ⟨hnil, rfl⟩ | ⟨e, rest, hcons, he⟩
  · rw [hnil, List.tail_nil]
  · rw [takeEvent_script he, hcons, State.popEvent_script, List.tail_cons]

theorem run_succ_of_step {s t : State} (hs : step s = .next t) (k : Nat) : run (k + 1) s = run k t := by
  simp [run, hs]

/-- A run that ends in a next state took a step and ran on from there. -/
theorem run_succ_cases {k : Nat} {s t : State} (h : run (k + 1) s = .next t) :
    ∃ m, step s = .next m ∧ run k m = .next t := by
  cases hs : step s with
  | next m => exact ⟨m, rfl, by rwa [run_succ_of_step hs] at h⟩
  | fault e => simp [run, hs] at h
  | refused e => simp [run, hs] at h

/-! ### What the ports hide

Exchanging the operand registers and the contexts commutes with every port access that is not a write to `CMD`: no
port shows them and no such access writes them (20_memory.md R31). -/

/-- `s` with the operand registers and the contexts of `u`. -/
def State.withRegistersOf (s u : State) : State :=
  { s with r := u.r, mod := u.mod, mn := u.mn, mninv := u.mninv, mkWidth := u.mkWidth }

@[simp] theorem State.withRegistersOf_host (s u : State) : (s.withRegistersOf u).host = s.host := rfl

@[simp] theorem State.withRegistersOf_popEvent (s u : State) (rest : List HostEvent) :
    (s.withRegistersOf u).popEvent rest = (s.popEvent rest).withRegistersOf u := rfl

/-- No port shows an operand register or a context. -/
@[simp] theorem State.withRegistersOf_portValue (s u : State) (p : Nat) :
    (s.withRegistersOf u).portValue p = s.portValue p := rfl

/-- A port access that gives the block no command: a read, or a write to a port other than `CMD`. -/
def HostEvent.GivesNoCommand (e : HostEvent) : Prop := (∃ p, e = .read p) ∨ ∃ p v, e = .write p v ∧ p ≠ 0

theorem takeEvent_withRegistersOf {e : HostEvent} {s t : State} (he : e.GivesNoCommand)
    (h : takeEvent e s = .next t) (u : State) :
    takeEvent e (s.withRegistersOf u) = .next (t.withRegistersOf u) := by
  rcases he with ⟨p, rfl⟩ | ⟨p, v, rfl, hp⟩
  · obtain ⟨x, hx, rfl⟩ := portRead_cases h
    exact portRead_of_portValue (s := s.withRegistersOf u) hx
  · rcases portWrite_cases h with ⟨h0, -⟩ | ⟨rfl, rfl⟩ | ⟨rfl, rfl⟩ | ⟨hro, rfl⟩
    · exact absurd h0 hp
    · rfl
    · rfl
    · exact portWrite_of_readOnly hro v _

theorem step_withRegistersOf {s t : State} (hs : ∀ e ∈ s.host.script, e.GivesNoCommand) (h : step s = .next t)
    (u : State) : step (s.withRegistersOf u) = .next (t.withRegistersOf u) := by
  rcases step_cases h with ⟨hnil, rfl⟩ | ⟨e, rest, hcons, he⟩
  · exact step_of_script_nil hnil
  · have hcmd : e.GivesNoCommand := hs e (hcons ▸ List.mem_cons_self)
    rw [step_of_script_cons (s := s.withRegistersOf u) hcons, State.withRegistersOf_popEvent]
    exact takeEvent_withRegistersOf hcmd he u

theorem run_withRegistersOf {k : Nat} {s t : State} (hs : ∀ e ∈ s.host.script, e.GivesNoCommand)
    (h : run k s = .next t) (u : State) : run k (s.withRegistersOf u) = .next (t.withRegistersOf u) := by
  induction k generalizing s with
  | zero =>
    obtain rfl := Host.Outcome.next.inj h
    rfl
  | succ k ih =>
    obtain ⟨m, hstep, hrun⟩ := run_succ_cases h
    rw [run_succ_of_step (step_withRegistersOf hs hstep u)]
    refine ih (fun e he => hs e ?_) hrun
    rw [step_script hstep] at he
    exact List.mem_of_mem_tail he

/-- Settles O22: the second block is the first with other registers and contexts, and stays so along the run. -/
theorem portsHideRegisters : Obligations.PortsHideRegisters := by
  intro k s u t hs hu h
  exact ⟨t.withRegistersOf u, (congrArg (run k) hu).trans (run_withRegistersOf hs h u), t.withRegistersOf_host u⟩

/-! ### The byte image -/

/-- Byte `b` of a number, as a little-endian bus numbers its bytes (20_memory.md R34). -/
def byteAt (v b : Nat) : Nat := v / 2 ^ (8 * b) % 2 ^ 8

theorem byteImage_eq (p : Params) (v : Nat) : byteImage p v = (List.range (p.b / 8)).map (byteAt v) := rfl

theorem wordBytes_eq (p : Params) (d : Nat) : wordBytes p d = (List.range (p.w / 8)).map (byteAt d) := rfl

/-- When a word is `c` bytes, byte `b` of word `j` is byte `c * j + b` of the value. -/
theorem byteAt_digit {p : Params} {c b : Nat} (hw : p.w = 8 * c) (hb : b < c) (v j : Nat) :
    byteAt (digit p v j) b = byteAt v (c * j + b) := by
  have hbase : base p = 2 ^ (8 * b) * 2 ^ (p.w - 8 * b) := by
    rw [base, ← pow_add]
    congr 1
    omega
  have hbyte : 2 ^ 8 ∣ 2 ^ (p.w - 8 * b) := Nat.pow_dvd_pow 2 (by omega)
  calc byteAt (digit p v j) b
      = v / 2 ^ (p.w * j) % (2 ^ (8 * b) * 2 ^ (p.w - 8 * b)) / 2 ^ (8 * b) % 2 ^ 8 := by
        rw [byteAt, digit, hbase]
    _ = v / 2 ^ (p.w * j) / 2 ^ (8 * b) % 2 ^ 8 := by
        rw [Nat.mod_mul_right_div_self, Nat.mod_mod_of_dvd _ hbyte]
    _ = byteAt v (c * j + b) := by
        rw [byteAt, Nat.div_div_eq_div_mul, ← pow_add, hw, mul_add, mul_assoc]

/-- A list of `c * n` values is `n` groups of `c`, one after the other. -/
theorem map_range_mul {α : Type} (f : Nat → α) (c n : Nat) :
    (List.range (c * n)).map f = (List.range n).flatMap fun j => (List.range c).map fun b => f (c * j + b) := by
  induction n with
  | zero => rfl
  | succ n ih =>
    rw [Nat.mul_succ, List.range_add, List.map_append, List.map_map, ih, List.range_succ, List.flatMap_append,
      List.flatMap_singleton]
    rfl

/-- Settles O59: the `c * N` bytes of the value, in groups of `c`, are the bytes of word 0, of word 1 and so on. -/
theorem byteImageIsWordsInOrder : Obligations.ByteImageIsWordsInOrder := by
  rintro p v ⟨c, hw⟩
  have hbytes : p.b / 8 = c * p.n := by rw [Params.b, hw, mul_assoc, Nat.mul_div_cancel_left _ (by decide)]
  have hword : p.w / 8 = c := by rw [hw, Nat.mul_div_cancel_left _ (by decide)]
  rw [byteImage_eq, hbytes, map_range_mul, toWords, List.flatMap_map]
  congr 1
  funext j
  rw [wordBytes_eq, hword]
  exact List.map_congr_left fun b hb => (byteAt_digit hw (List.mem_range.mp hb) v j).symm

end Sys2Proof.Machine
end

section
/-!
What the decoder accepts, what the encoder makes and what a row of the opcode map matches (30_encoding.md R40 to R46) are
each said as the same test of a word's fields; O1 to O5 compare them.
-/

namespace Sys2Proof

/-! ### Fields of a word -/

@[simp] theorem zeroBits_eq_true {v : Cmd} {hi lo : Nat} : zeroBits v hi lo = true ↔ bits v hi lo = 0 := beq_iff_eq

/-- A word is its fields of format R and its low byte (30_encoding.md R41). -/
theorem toNat_eq_formatR_fields (v : Cmd) :
    v.toNat = formatR (fieldOP v) (fieldRD v) (fieldRA v) (fieldRB v) (fieldRC v) + bits v 7 0 := by
  have := v.isLt
  simp only [formatR, fieldOP, fieldRD, fieldRA, fieldRB, fieldRC, bits, Fin.ofNat]
  omega

/-- A word is its fields of format I (30_encoding.md R42). -/
theorem toNat_eq_formatI_fields (v : Cmd) : v.toNat = formatI (fieldOP v) (fieldRX v) (fieldRA v) (fieldIMM v) := by
  have := v.isLt
  simp only [formatI, fieldOP, fieldRX, fieldRA, fieldIMM, bits, Fin.ofNat, BitVec.toNat_ofNat]
  omega

/-- The words of format R with `ZERO = 0`, by their fields. -/
theorem toNat_eq_formatR_iff {v : Cmd} {op : Nat} (hop : op < 256) {rd ra rb rc : Reg} :
    v.toNat = formatR op rd ra rb rc ↔
      fieldOP v = op ∧ fieldRD v = rd ∧ fieldRA v = ra ∧ fieldRB v = rb ∧ fieldRC v = rc ∧ bits v 7 0 = 0 := by
  constructor
  · intro h
    simp only [formatR] at h
    simp only [fieldOP, fieldRD, fieldRA, fieldRB, fieldRC, bits, Fin.ext_iff, Fin.ofNat, h]
    omega
  · rintro ⟨rfl, rfl, rfl, rfl, rfl, hzero⟩
    simpa [hzero] using toNat_eq_formatR_fields v

/-- The words of format I, by their fields. -/
theorem toNat_eq_formatI_iff {v : Cmd} {op : Nat} (hop : op < 256) {rx ra : Reg} {imm : Imm} :
    v.toNat = formatI op rx ra imm ↔ fieldOP v = op ∧ fieldRX v = rx ∧ fieldRA v = ra ∧ fieldIMM v = imm := by
  constructor
  · intro h
    have := imm.isLt
    simp only [formatI] at h
    simp only [fieldOP, fieldRX, fieldRA, fieldIMM, bits, Fin.ext_iff, ← BitVec.toNat_inj, BitVec.toNat_ofNat,
      Fin.ofNat, h]
    omega
  · rintro ⟨rfl, rfl, rfl, rfl⟩
    exact toNat_eq_formatI_fields v

theorem fieldRX_eq_fieldRD (v : Cmd) : fieldRX v = fieldRD v := rfl

theorem bits_23_20_eq_zero {v : Cmd} : bits v 23 20 = 0 ↔ fieldRD v = 0 := by
  simp only [fieldRD, bits, Fin.ext_iff, Fin.ofNat]
  omega

theorem bits_19_16_eq_zero {v : Cmd} : bits v 19 16 = 0 ↔ fieldRA v = 0 := by
  simp only [fieldRA, bits, Fin.ext_iff, Fin.ofNat]
  omega

theorem bits_11_0_eq_zero {v : Cmd} : bits v 11 0 = 0 ↔ fieldRC v = 0 ∧ bits v 7 0 = 0 := by
  simp only [fieldRC, bits, Fin.ext_iff, Fin.ofNat]
  omega

theorem bits_15_0_eq_zero {v : Cmd} : bits v 15 0 = 0 ↔ fieldRB v = 0 ∧ fieldRC v = 0 ∧ bits v 7 0 = 0 := by
  simp only [fieldRB, fieldRC, bits, Fin.ext_iff, Fin.ofNat]
  omega

theorem bits_19_0_eq_zero {v : Cmd} :
    bits v 19 0 = 0 ↔ fieldRA v = 0 ∧ fieldRB v = 0 ∧ fieldRC v = 0 ∧ bits v 7 0 = 0 := by
  simp only [fieldRA, fieldRB, fieldRC, bits, Fin.ext_iff, Fin.ofNat]
  omega

/-! ### What a word must hold to be a given command -/

/-- `OP` of a command (30_encoding.md R44). -/
def Instr.opcode : Instr → Nat
  | .mov .. => 0x10 | .setw .. => 0x11 | .setdw .. => 0x12 | .getw .. => 0x13 | .getdw .. => 0x14 | .ldw .. => 0x15
  | .stw .. => 0x16 | .iszero .. => 0x20 | .isodd .. => 0x21 | .iseven .. => 0x22 | .order .. => 0x23
  | .bitlen .. => 0x24 | .getbit .. => 0x25 | .cmp .. => 0x26 | .add .. => 0x30 | .sub .. => 0x31 | .mul .. => 0x40
  | .mulx .. => 0x41 | .div .. => 0x50 | .divx .. => 0x51 | .shl .. => 0x60 | .shr .. => 0x61 | .setmod .. => 0x70
  | .modnorm .. => 0x71 | .modadd .. => 0x72 | .modsub .. => 0x73 | .modmul .. => 0x74 | .modpow .. => 0x75
  | .msetup .. => 0x80 | .mtorepr .. => 0x81 | .mfromrepr .. => 0x82 | .mmul .. => 0x83 | .mpow .. => 0x84

/-- The bit ranges `(hi, lo)` of a command's word that no operand uses, `ZERO` included (30_encoding.md R44). -/
def Instr.unused : Instr → List (Nat × Nat)
  | .mov .. | .mtorepr .. | .mfromrepr .. => [(15, 0)]
  | .setw .. | .setdw .. => [(19, 0)]
  | .getw .. | .getdw .. | .iszero .. | .isodd .. | .iseven .. | .order .. | .bitlen .. | .setmod .. | .modnorm .. =>
    [(23, 20), (15, 0)]
  | .ldw .. => [(19, 16)]
  | .stw .. | .getbit .. => [(23, 20)]
  | .cmp .. => [(23, 20), (11, 0)]
  | .add .. | .sub .. | .mul .. | .div .. | .modadd .. | .modsub .. | .modmul .. | .modpow .. | .mmul .. | .mpow .. =>
    [(11, 0)]
  | .mulx .. | .divx .. => [(7, 0)]
  | .shl .. | .shr .. | .msetup .. => []

/-- The command of the same mnemonic whose operands are the fields of `v`. -/
def Instr.withFieldsOf (v : Cmd) : Instr → Instr
  | .mov .. => .mov (fieldRD v) (fieldRA v)
  | .setw .. => .setw (fieldRD v)
  | .setdw .. => .setdw (fieldRD v)
  | .getw .. => .getw (fieldRA v)
  | .getdw .. => .getdw (fieldRA v)
  | .ldw .. => .ldw (fieldRX v) (fieldIMM v)
  | .stw .. => .stw (fieldRA v) (fieldIMM v)
  | .iszero .. => .iszero (fieldRA v)
  | .isodd .. => .isodd (fieldRA v)
  | .iseven .. => .iseven (fieldRA v)
  | .order .. => .order (fieldRA v)
  | .bitlen .. => .bitlen (fieldRA v)
  | .getbit .. => .getbit (fieldRA v) (fieldIMM v)
  | .cmp .. => .cmp (fieldRA v) (fieldRB v)
  | .add .. => .add (fieldRD v) (fieldRA v) (fieldRB v)
  | .sub .. => .sub (fieldRD v) (fieldRA v) (fieldRB v)
  | .mul .. => .mul (fieldRD v) (fieldRA v) (fieldRB v)
  | .mulx .. => .mulx (fieldRD v) (fieldRA v) (fieldRB v) (fieldRC v)
  | .div .. => .div (fieldRD v) (fieldRA v) (fieldRB v)
  | .divx .. => .divx (fieldRD v) (fieldRA v) (fieldRB v) (fieldRC v)
  | .shl .. => .shl (fieldRX v) (fieldRA v) (fieldIMM v)
  | .shr .. => .shr (fieldRX v) (fieldRA v) (fieldIMM v)
  | .setmod .. => .setmod (fieldRA v)
  | .modnorm .. => .modnorm (fieldRA v)
  | .modadd .. => .modadd (fieldRD v) (fieldRA v) (fieldRB v)
  | .modsub .. => .modsub (fieldRD v) (fieldRA v) (fieldRB v)
  | .modmul .. => .modmul (fieldRD v) (fieldRA v) (fieldRB v)
  | .modpow .. => .modpow (fieldRD v) (fieldRA v) (fieldRB v)
  | .msetup .. => .msetup (fieldRX v) (fieldRA v) (fieldIMM v)
  | .mtorepr .. => .mtorepr (fieldRD v) (fieldRA v)
  | .mfromrepr .. => .mfromrepr (fieldRD v) (fieldRA v)
  | .mmul .. => .mmul (fieldRD v) (fieldRA v) (fieldRB v)
  | .mpow .. => .mpow (fieldRD v) (fieldRA v) (fieldRB v)

/-- A word has the opcode of a command and 0 in the bits the command leaves unused (30_encoding.md R45 steps 2, 3). -/
def Instr.Admits (i : Instr) (v : Cmd) : Prop := fieldOP v = i.opcode ∧ ∀ f ∈ i.unused, bits v f.1 f.2 = 0

/-- A row of the decoder gives its command when its unused bits are 0. -/
theorem rowIf_eq_ok {z : Bool} {i j : Instr} : rowIf z i = .ok j ↔ z = true ∧ i = j := by
  cases z <;> simp [rowIf]

/-- Everything the decoder accepts. -/
theorem decode_eq_ok_iff {v : Cmd} {i : Instr} : decode v = .ok i ↔ i.Admits v ∧ i.withFieldsOf v = i := by
  constructor
  · intro h
    unfold decode at h
    split at h
    -- an unknown opcode; then the three rows of format I with no unused bit, then the others
    case h_34 => cases h
    case h_21 | h_22 | h_29 =>
      obtain rfl := Except.ok.inj h
      exact ⟨⟨‹_›, List.forall_mem_nil _⟩, rfl⟩
    all_goals
      obtain ⟨hz, rfl⟩ := rowIf_eq_ok.mp h
      exact ⟨⟨‹_›, by simpa [Instr.unused] using hz⟩, rfl⟩
  · rintro ⟨⟨hop, hz⟩, hi⟩
    rw [← hi]
    unfold decode
    rw [hop]
    cases i with
    | shl | shr | msetup => rfl
    | _ => exact rowIf_eq_ok.mpr ⟨by simpa [Instr.unused] using hz, rfl⟩

/-- No bit of a command's number is dropped when the word is made. -/
theorem encode_toNat (i : Instr) : (encode i).toNat = encodeNat i := by
  apply Laws.EncodeFits.of_lt
  cases i with
  | ldw | stw | getbit | shl | shr | msetup => exact Laws.formatI_lt (by decide) _ _ _
  | _ => exact Laws.formatR_lt (by decide) _ _ _ _

/-- A command's word is the word the command admits that names the command's operands (30_encoding.md R41, R42). -/
theorem encode_eq_iff {v : Cmd} {i : Instr} : encode i = v ↔ i.Admits v ∧ i.withFieldsOf v = i := by
  rw [← BitVec.toNat_inj, encode_toNat, eq_comm]
  cases i with
  | ldw | stw | getbit | shl | shr | msetup =>
    rw [encodeNat, toNat_eq_formatI_iff (by decide)]
    simp [Instr.Admits, Instr.opcode, Instr.unused, Instr.withFieldsOf, fieldRX_eq_fieldRD, bits_23_20_eq_zero,
      bits_19_16_eq_zero, and_assoc, and_comm, and_left_comm]
  | _ =>
    rw [encodeNat, toNat_eq_formatR_iff (by decide)]
    simp [Instr.Admits, Instr.opcode, Instr.unused, Instr.withFieldsOf, bits_23_20_eq_zero, bits_11_0_eq_zero,
      bits_15_0_eq_zero, bits_19_0_eq_zero, and_assoc, and_comm, and_left_comm]

/-! ### The rows of the opcode map -/

/-- The mask of the bits `hi:lo`. -/
def fieldMask (hi lo : Nat) : Cmd := BitVec.ofNat 32 ((2 ^ (hi + 1 - lo) - 1) <<< lo)

/-- A field mask cuts its field out of a word. -/
theorem and_fieldMask (v : Cmd) (hi lo : Nat) : v &&& fieldMask hi lo = BitVec.ofNat 32 (bits v hi lo <<< lo) := by
  apply BitVec.eq_of_getLsbD_eq
  intro k hk
  rw [bits, ← Nat.shiftRight_eq_div_pow]
  simp only [fieldMask, BitVec.getLsbD_and, BitVec.getLsbD_ofNat, Nat.testBit_shiftLeft,
    Nat.testBit_two_pow_sub_one, Nat.testBit_mod_two_pow, Nat.testBit_shiftRight]
  by_cases hlo : lo ≤ k
  · simp [hk, hlo, BitVec.getLsbD, Bool.and_comm]
  · simp [hlo]

theorem bits_shiftLeft_lt (v : Cmd) (hi lo : Nat) : bits v hi lo <<< lo < 2 ^ 32 := by
  rw [bits, Nat.shiftLeft_eq]
  exact ((Nat.mul_le_mul_right _ (Nat.mod_le _ _)).trans (Nat.div_mul_le_self _ _)).trans_lt v.isLt

theorem toNat_and_fieldMask (v : Cmd) (hi lo : Nat) : (v &&& fieldMask hi lo).toNat = bits v hi lo <<< lo := by
  rw [and_fieldMask, BitVec.toNat_ofNat, Nat.mod_eq_of_lt (bits_shiftLeft_lt v hi lo)]

theorem and_fieldMask_eq_zero {v : Cmd} {hi lo : Nat} : v &&& fieldMask hi lo = 0 ↔ bits v hi lo = 0 := by
  rw [← BitVec.toNat_inj, toNat_and_fieldMask]
  exact Nat.shiftLeft_eq_zero_iff

/-- The opcode map's match of bits 31:24 is the test of `OP`. -/
theorem and_opcodeMask {v : Cmd} {op : Nat} (hop : op < 256) :
    v &&& fieldMask 31 24 = BitVec.ofNat 32 (op <<< 24) ↔ fieldOP v = op := by
  rw [← BitVec.toNat_inj, toNat_and_fieldMask, BitVec.toNat_ofNat, fieldOP]
  omega

/-- A pattern that lies in one mask and is 0 on another matches under both masks when it matches under the one and the
word is 0 on the other. -/
theorem and_or_eq_iff {v m n p : Cmd} (hm : p &&& m = p) (hn : p &&& n = 0) :
    v &&& (m ||| n) = p ↔ v &&& m = p ∧ v &&& n = 0 := by
  have absorb : ∀ x y : Cmd, v &&& (x ||| y) &&& x = v &&& x := by
    intro x y
    ext k
    simp only [BitVec.getElem_and, BitVec.getElem_or]
    cases x[k] <;> simp
  constructor
  · intro h
    exact ⟨by rw [← absorb m n, h, hm], by rw [← absorb n m, BitVec.or_comm, h, hn]⟩
  · rintro ⟨hvm, hvn⟩
    rw [BitVec.and_or_distrib_left, hvm, hvn]
    exact BitVec.or_zero

/-- The mask of the bits of several ranges. -/
def fieldsMask : List (Nat × Nat) → Cmd
  | [] => 0
  | f :: fs => fieldMask f.1 f.2 ||| fieldsMask fs

theorem and_fieldsMask_eq_zero {v : Cmd} {fs : List (Nat × Nat)} :
    v &&& fieldsMask fs = 0 ↔ ∀ f ∈ fs, bits v f.1 f.2 = 0 := by
  induction fs with
  | nil => simp [fieldsMask]
  | cons f fs ih =>
    rw [List.forall_mem_cons, ← and_fieldMask_eq_zero, ← ih]
    exact and_or_eq_iff BitVec.zero_and BitVec.zero_and

/-- The row of the opcode map a command belongs to. -/
def Instr.row (i : Instr) : OpcodeRow :=
  ⟨i.mnemonic, BitVec.ofNat 32 (i.opcode <<< 24), fieldMask 31 24 ||| fieldsMask i.unused⟩

/-- A row depends on the mnemonic alone. -/
theorem Instr.row_withFieldsOf (i : Instr) (v : Cmd) : (i.withFieldsOf v).row = i.row := by cases i <;> rfl

/-- Every command has its row in the opcode map. -/
theorem Instr.row_mem (i : Instr) : i.row ∈ opcodeTable := by
  rw [← i.row_withFieldsOf 0]
  cases i <;> simp only [withFieldsOf] <;> decide

theorem Instr.opcode_lt (i : Instr) : i.opcode < 256 := by cases i <;> simp [opcode]

/-- The pattern of a row has the row's opcode, and 0 below it. -/
theorem Instr.pattern_toNat (i : Instr) : i.row.pattern.toNat = i.opcode * 2 ^ 24 := by
  have := i.opcode_lt
  rw [row, BitVec.toNat_ofNat]
  omega

theorem Instr.pattern_and_opcodeMask (i : Instr) : i.row.pattern &&& fieldMask 31 24 = i.row.pattern := by
  refine (and_opcodeMask i.opcode_lt).mpr ?_
  have := i.opcode_lt
  rw [fieldOP, bits, i.pattern_toNat]
  omega

/-- The unused bits lie below the opcode. -/
theorem Instr.unused_below_opcode (i : Instr) : ∀ f ∈ i.unused, f.2 ≤ f.1 ∧ f.1 < 24 := by
  cases i <;> simp [unused]

theorem Instr.pattern_and_unused (i : Instr) : i.row.pattern &&& fieldsMask i.unused = 0 := by
  refine and_fieldsMask_eq_zero.mpr fun f hf => ?_
  obtain ⟨hlo, hhi⟩ := i.unused_below_opcode f hf
  have hsplit : 2 ^ 24 = 2 ^ (23 - f.1) * 2 ^ (f.1 + 1 - f.2) * 2 ^ f.2 := by
    rw [← pow_add, ← pow_add]
    congr 1
    omega
  rw [bits, i.pattern_toNat, hsplit, ← mul_assoc, ← mul_assoc, Nat.mul_div_cancel _ (Nat.two_pow_pos _),
    Nat.mul_mod_left]

/-- Every row of the opcode map is a command's row: its pattern is the word of one. -/
theorem exists_row_of_mem {row : OpcodeRow} (h : row ∈ opcodeTable) : ∃ i : Instr, i.row = row := by
  have hpattern : ∀ row ∈ opcodeTable, (decode row.pattern).toOption.map Instr.row = some row := by decide
  obtain ⟨i, -, hi⟩ := Option.map_eq_some_iff.mp (hpattern row h)
  exact ⟨i, hi⟩

/-- No mnemonic has two rows. -/
theorem nodup_mnemonics : (opcodeTable.map OpcodeRow.mnemonic).Nodup := by decide

/-- A word fits the match and mask of a command's row when the command admits it (30_encoding.md R44). -/
theorem fits_row_iff {v : Cmd} {i : Instr} : v &&& i.row.mask = i.row.pattern ↔ i.Admits v := by
  refine (and_or_eq_iff i.pattern_and_opcodeMask i.pattern_and_unused).trans ?_
  exact and_congr (and_opcodeMask i.opcode_lt) and_fieldsMask_eq_zero

theorem Instr.mnemonic_withFieldsOf (i : Instr) (v : Cmd) : (i.withFieldsOf v).mnemonic = i.mnemonic := by
  cases i <;> rfl

/-- A word that a command admits decodes to that command, with the word's own operands. -/
theorem decode_of_admits {v : Cmd} {i : Instr} (h : i.Admits v) : decode v = .ok (i.withFieldsOf v) := by
  refine decode_eq_ok_iff.mpr ?_
  cases i <;> exact ⟨h, rfl⟩

/-! ### The statements about words -/

/-- Settles O1: the word of a command is one the command admits, and names its operands. -/
theorem decodeOfEncode : Obligations.DecodeOfEncode := fun _ => decode_eq_ok_iff.mpr (encode_eq_iff.mp rfl)

/-- Settles O2: a word that a command admits and that names its operands is the command's only word. -/
theorem encodeOfDecode : Obligations.EncodeOfDecode := fun _ _ h => encode_eq_iff.mpr (decode_eq_ok_iff.mp h)

/-- Settles O3: a command's row tests the opcode and the unused bits, which is what the decoder tests. -/
theorem decodeIffOpcodeRow : Obligations.DecodeIffOpcodeRow := by
  intro v m
  constructor
  · rintro ⟨i, hi, rfl⟩
    obtain ⟨hadmits, -⟩ := decode_eq_ok_iff.mp hi
    exact ⟨i.row, i.row_mem, rfl, fits_row_iff.mpr hadmits⟩
  · rintro ⟨row, hrow, rfl, hfits⟩
    obtain ⟨i, rfl⟩ := exists_row_of_mem hrow
    exact ⟨i.withFieldsOf v, decode_of_admits (fits_row_iff.mp hfits), i.mnemonic_withFieldsOf v⟩

/-- Settles O4: by O3 a word that decodes fits the row of its command's mnemonic and no other, and a word that does not
decode fits none. -/
theorem wordIsOneCommandOrIllegal : Obligations.WordIsOneCommandOrIllegal := by
  intro v
  have hdecode : ∀ row ∈ opcodeTable, v &&& row.mask = row.pattern →
      ∃ i, decode v = .ok i ∧ i.mnemonic = row.mnemonic :=
    fun row hrow hfits => (decodeIffOpcodeRow v _).mpr ⟨row, hrow, rfl, hfits⟩
  cases hv : decode v with
  | ok i =>
    obtain ⟨hadmits, -⟩ := decode_eq_ok_iff.mp hv
    refine .inl ⟨⟨i, rfl, fun j hj => (Except.ok.inj hj).symm⟩, i.row, ⟨i.row_mem, fits_row_iff.mpr hadmits⟩, ?_⟩
    rintro row ⟨hrow, hfits⟩
    obtain ⟨j, hj, hm⟩ := hdecode row hrow hfits
    obtain rfl := Except.ok.inj (hv.symm.trans hj)
    exact List.inj_on_of_nodup_map nodup_mnemonics hrow i.row_mem hm.symm
  | error e =>
    refine .inr ⟨⟨e, rfl⟩, fun row hrow hfits => ?_⟩
    obtain ⟨j, hj, -⟩ := hdecode row hrow hfits
    exact nomatch hv.symm.trans hj

/-- Settles O5: eight of the words are those of the commands named, and the decoder's checks refuse the other two. -/
theorem exampleWordsDecode : Obligations.ExampleWordsDecode :=
  ⟨decodeOfEncode (.add 3 1 2), decodeOfEncode (.shl 4 5 12), decodeOfEncode (.mulx 2 0 1 3),
    decodeOfEncode (.divx 4 2 5 3), decodeOfEncode (.msetup 2 1 8), decodeOfEncode (.ldw 1 2),
    decodeOfEncode (.cmp 1 2), decodeOfEncode (.modpow 3 1 2), rfl, rfl⟩

end Sys2Proof
end

section
/-!
The assembler's operands (O6), a write to `CMD` (O7, O8) and the static checks (O17).
-/

namespace Sys2Proof.Machine

/-- An immediate written as a number is read back. -/
theorem immOf_toNat (imm : Imm) : immOf imm.toNat = some imm := by
  rw [immOf, if_pos imm.isLt, BitVec.ofNat_toNat, BitVec.setWidth_eq]

/-- Settles O6: the assembler's line of each mnemonic takes the operands in the order `operands` gives them. -/
theorem assembleOfOperands : Obligations.AssembleOfOperands := by
  intro i
  cases i with
  | ldw _ imm | stw _ imm | getbit _ imm | shl _ _ imm | shr _ _ imm | msetup _ _ imm =>
    exact congrArg (Option.map _) (immOf_toNat imm)
  | _ => rfl

/-- Settles O7: a step takes the write, and a write to `CMD` of a word that decodes is the command. -/
theorem stepRunsDecodedCommand : Obligations.StepRunsDecodedCommand := fun s _ rest _ hs herr hdecode =>
  (step_of_script_cons hs).trans (writeCmd_of_decode (s := s.popEvent rest) herr hdecode)

/-- The zero-divisor test does not see the host's side. -/
theorem zeroDivisor_popEvent {i : Instr} {s : State} {rest : List HostEvent} :
    zeroDivisor i (s.popEvent rest) ↔ zeroDivisor i s :=
  zeroDivisor_congr fun q _ => q.agree_refl s

/-- Settles O8: the decoder's checks by O4, the command's own by `exec`'s three cases; the word recorded is the word
written by O2. -/
theorem cmdWriteDoesFirstCheckThatApplies : Obligations.CmdWriteDoesFirstCheckThatApplies := by
  rintro s _ v _ rest hs rfl rfl
  have hstep : step s = writeCmd (BitVec.ofNat 32 v) (s.popEvent rest) := step_of_script_cons hs
  refine ⟨fun herr => ?_, fun herr hnone => ?_, fun i herr hdecode => ?_⟩
  · exact hstep.trans (writeCmd_of_faulted (s := s.popEvent rest) herr _)
  · rcases wordIsOneCommandOrIllegal (BitVec.ofNat 32 v) with ⟨-, row, ⟨hrow, hfits⟩, -⟩ | ⟨⟨e, he⟩, -⟩
    · exact absurd hfits (hnone row hrow)
    · exact hstep.trans (writeCmd_of_error (s := s.popEvent rest) herr he)
  · have hexec : step s = exec i (s.popEvent rest) := stepRunsDecodedCommand s v rest i hs herr hdecode
    rw [← encodeOfDecode _ _ hdecode, ← zeroDivisor_popEvent (rest := rest)]
    refine ⟨fun hwf => hexec.trans (exec_of_not_wellFormed hwf),
      fun hwf hz => hexec.trans (exec_of_zeroDivisor hwf hz),
      fun hwf hz => ⟨hexec, _, exec_of_passes hwf hz, ?_⟩⟩
    obtain ⟨-, -, herr', -⟩ := (s.popEvent rest).assignAll_keeps (assigns i (s.popEvent rest))
    exact herr'.trans herr

/-- The commands a static check refuses (30_encoding.md R45 steps 4 and 5, R48). -/
theorem not_wellFormed_iff {i : Instr} {n : Nat} : ¬ i.wellFormed n ↔
    (∃ r imm, (i = .ldw r imm ∨ i = .stw r imm) ∧ n ≤ imm.toNat) ∨ (∃ rd ra rb, i = .mulx rd ra rb rd) ∨
      (∃ ra rb, i = .div ra ra rb) ∨ ∃ ra rb rc, i = .divx ra ra rb rc := by
  cases i with
  | ldw | stw => simp
  | mulx | div | divx => simpa using eq_comm
  | _ => simp [Instr.wellFormed, Instr.staticCheck]

/-- Settles O17: of the three ways a command ends, the failed static check alone leaves ILLEGAL. -/
theorem illegalExactlyWhenIllFormed : Obligations.IllegalExactlyWhenIllFormed := by
  intro i s t herr ht
  rw [← not_wellFormed_iff]
  rcases exec_cases ht with ⟨hwf, rfl⟩ | ⟨hwf, -, rfl⟩ | ⟨hwf, -, rfl⟩
  · exact iff_of_true rfl hwf
  · exact iff_of_false nofun (not_not_intro hwf)
  · obtain ⟨-, -, herr', -⟩ := s.assignAll_keeps (assigns i s)
    rw [herr', herr]
    exact iff_of_false nofun (not_not_intro hwf)

end Sys2Proof.Machine
end

section
/-!
The pseudo-command `li` (30_encoding.md R52, O58): the register holds the low words of the value, one word more after each
pair of lines.
-/

namespace Sys2Proof.Machine

theorem State.setReg_setReg (s : State) (d : Reg) (u v : Nat) : (s.setReg d u).setReg d v = s.setReg d v := by
  simp [State.setReg]

theorem State.setReg_reg (s : State) (d : Reg) : s.setReg d (s.reg d) = s := by
  simp [State.setReg, State.reg]

/-- The low `j` words of a value and its word `j` above them are its low `j + 1` words. -/
theorem mod_base_pow_succ (p : Params) (v j : Nat) :
    v % base p ^ (j + 1) = v % base p ^ j + digit p v j * base p ^ j := by
  rw [Nat.mod_pow_succ, digit_eq, Nat.mul_comm]

/-- The low `j` words of a value have no word `j`. -/
theorem digit_mod_base_pow (p : Params) (v j : Nat) : digit p (v % base p ^ j) j = 0 := by
  rw [digit_eq, Nat.div_eq_of_lt (Nat.mod_lt _ (Nat.pow_pos (base_pos p))), Nat.zero_mod]

/-- A command line of a host script runs its command. -/
theorem step_of_cmdLine {s : State} {i : Instr} {rest : List HostEvent} (hs : s.host.script = cmdLine i :: rest)
    (hsafe : Safe s) : step s = exec i (s.popEvent rest) :=
  stepRunsDecodedCommand s _ rest i hs hsafe (by rw [BitVec.ofNat_toNat, BitVec.setWidth_eq, decodeOfEncode i])

/-- `s` with `d` in `DIN0` and the events `rest` still to come. -/
def State.liWritten (s : State) (d : Nat) (rest : List HostEvent) : State := { s.popEvent rest with din0 := d }

/-- `s` in the midst of `li rd, value`: the low `k` words of the value are in the register. -/
def State.liLoaded (s : State) (rd : Reg) (value k d : Nat) (rest : List HostEvent) : State :=
  (s.liWritten d rest).setReg rd (value % base s.par ^ k)

theorem State.liLoaded_liLoaded (s : State) (rd : Reg) (value j k d e : Nat) (rest rest' : List HostEvent) :
    (s.liLoaded rd value j d rest).liLoaded rd value k e rest' = s.liLoaded rd value k e rest' :=
  State.setReg_setReg (s.liWritten e rest') rd _ _

/-- A state with nothing left to load is its own `liLoaded`. -/
theorem State.eq_liLoaded {s : State} {rd : Reg} {value k : Nat} (h : s.reg rd = value % base s.par ^ k) :
    s = s.liLoaded rd value k s.din0 s.host.script := by
  rw [State.liLoaded, ← h]
  exact (s.setReg_reg rd).symm

/-- The lines of `li` for the `m` words from word `k` on, the zero words left out. -/
def liLines (p : Params) (rd : Reg) (value k m : Nat) : List HostEvent :=
  ((List.range' k m).filter fun j => digit p value j != 0).flatMap (liWord p rd value)

theorem liScript_eq (p : Params) (rd : Reg) (value : Nat) :
    liScript p rd value = .write 4 (digit p value 0) :: cmdLine (.setw rd) :: liLines p rd value 1 (p.n - 1) := rfl

theorem liLines_succ_of_zero {p : Params} {value k : Nat} (h : digit p value k = 0) (rd : Reg) (m : Nat) :
    liLines p rd value k (m + 1) = liLines p rd value (k + 1) m := by
  simp [liLines, List.range'_succ, h]

theorem liLines_succ_of_ne {p : Params} {value k : Nat} (h : digit p value k ≠ 0) (rd : Reg) (m : Nat) :
    liLines p rd value k (m + 1) = liWord p rd value k ++ liLines p rd value (k + 1) m := by
  simp [liLines, List.range'_succ, h]

/-- `LDW` of a word the register does not have yet adds that word (40_move_convert.md R65). -/
theorem exec_ldw_of_digit_zero {s : State} {rx : Reg} {imm : Imm} (hwf : imm.toNat < s.par.n)
    (hd : digit s.par (s.reg rx) imm.toNat = 0) :
    exec (.ldw rx imm) s = .next (s.setReg rx (s.reg rx + s.din0 * base s.par ^ imm.toNat)) := by
  rw [exec_of_passes (wellFormed_ldw.mpr hwf) id, assigns, hd, zero_mul, Nat.sub_zero, base, ← pow_mul]
  rfl

section Lines
variable {s : State} {rd : Reg} {value : Nat} {rest : List HostEvent} (hsafe : Safe s)
include hsafe

/-- A line `wr DIN0, digit(value, j)` and a command line after it are the command on that word. -/
theorem claimRun_wordThenCommand {i : Instr} {t : State} {j : Nat}
    (hs : s.host.script = .write 4 (digit s.par value j) :: cmdLine i :: rest)
    (ht : exec i (s.liWritten (digit s.par value j) rest) = .next t) (k : Nat) :
    claimRun (k + 2) s = claimRun k t := by
  have hfits : digit s.par value j < 2 ^ s.par.w := digit_lt _ _ _
  have hword : step s = .next (s.liWritten (digit s.par value j) (cmdLine i :: rest)) := by
    obtain ⟨hdin0, -⟩ := portWritesFollowTable s 4 _ _ hs (by decide) (by decide)
    rw [hdin0 rfl, Nat.mod_eq_of_lt hfits]
    rfl
  have hcommand : step (s.liWritten (digit s.par value j) (cmdLine i :: rest)) = .next t :=
    (step_of_cmdLine (s := s.liWritten _ _) rfl hsafe).trans ht
  have hwritten : Safe (s.liWritten (digit s.par value j) (cmdLine i :: rest)) := hsafe
  rw [claimRun_succ_of_step hsafe hword, claimRun_succ_of_step hwritten hcommand]

/-- The first two lines of `li` load word 0. -/
theorem claimRun_liWordZero
    (hs : s.host.script = .write 4 (digit s.par value 0) :: cmdLine (.setw rd) :: rest) (k : Nat) :
    claimRun (k + 2) s = claimRun k (s.liLoaded rd value 1 (digit s.par value 0) rest) := by
  refine claimRun_wordThenCommand hsafe hs ?_ k
  rw [State.liLoaded, pow_one, ← digit_zero]
  rfl

/-- The two lines for word `j` put it above the words already in the register. -/
theorem claimRun_liWord {j : Nat} (hj : j < s.par.n) (hn : s.par.n ≤ 65536)
    (hreg : s.reg rd = value % base s.par ^ j) (hs : s.host.script = liWord s.par rd value j ++ rest) (k : Nat) :
    claimRun (k + 2) s = claimRun k (s.liLoaded rd value (j + 1) (digit s.par value j) rest) := by
  have himm : (BitVec.ofNat 16 j).toNat = j := Nat.mod_eq_of_lt (hj.trans_le hn)
  refine claimRun_wordThenCommand hsafe hs ?_ k
  rw [State.liLoaded, mod_base_pow_succ, ← hreg]
  refine (exec_ldw_of_digit_zero (himm.symm ▸ hj) ?_).trans ?_
  · rw [himm]
    exact (congrArg (digit s.par · j) hreg).trans (digit_mod_base_pow _ _ _)
  · rw [himm]
    rfl

/-- The lines for `m` words from word `k` on load those words. -/
theorem claimRun_liLines {m k : Nat} (hkm : k + m ≤ s.par.n) (hn : s.par.n ≤ 65536)
    (hreg : s.reg rd = value % base s.par ^ k) (hs : s.host.script = liLines s.par rd value k m ++ rest) :
    ∃ d, claimRun (liLines s.par rd value k m).length s = .next (s.liLoaded rd value (k + m) d rest) := by
  induction m generalizing s k with
  | zero =>
    obtain rfl : s.host.script = rest := hs
    exact ⟨s.din0, (State.settled_of_safe hsafe).trans (congrArg _ (State.eq_liLoaded hreg))⟩
  | succ m ih =>
    have hsucc : k + (m + 1) = k + 1 + m := by omega
    rw [hsucc] at hkm ⊢
    by_cases hd : digit s.par value k = 0
    · rw [liLines_succ_of_zero hd] at hs ⊢
      refine ih hsafe hkm hn ?_ hs
      rw [hreg, mod_base_pow_succ, hd, zero_mul, add_zero]
    · rw [liLines_succ_of_ne hd] at hs ⊢
      rw [List.append_assoc] at hs
      obtain ⟨e, he⟩ := ih
        (s := s.liLoaded rd value (k + 1) (digit s.par value k) (liLines s.par rd value (k + 1) m ++ rest))
        hsafe hkm hn (State.reg_setReg_self _ _ _) rfl
      rw [State.liLoaded_liLoaded] at he
      rw [List.length_append, Nat.add_comm]
      exact ⟨e, (claimRun_liWord hsafe (by omega) hn hreg hs _).trans he⟩

end Lines

/-- Settles O58: word 0 is loaded by `SETW`, and each nonzero word above it by an `LDW`, up to word `N - 1`. -/
theorem liLoadsValue : Obligations.LiLoadsValue := by
  intro s rd value rest hinv hsafe hvalue hs
  rw [liScript_eq] at hs ⊢
  obtain ⟨hw, hn1, hb⟩ := hinv.par_ok
  have hn : s.par.n ≤ 65536 := (Nat.le_mul_of_pos_left _ hw).trans hb
  have hall : value % base s.par ^ (1 + (s.par.n - 1)) = value := by
    rw [Nat.add_sub_cancel' hn1, ← limit_eq_base_pow]
    exact Nat.mod_eq_of_lt hvalue
  obtain ⟨d, hd⟩ := claimRun_liLines (rest := rest)
    (s := s.liLoaded rd value 1 (digit s.par value 0) (liLines s.par rd value 1 (s.par.n - 1) ++ rest))
    hsafe (Nat.add_sub_cancel' hn1).le hn (State.reg_setReg_self _ _ _) rfl
  rw [State.liLoaded_liLoaded, State.liLoaded] at hd
  refine ⟨_, (claimRun_liWordZero hsafe hs _).trans hd, ⟨?_, fun j hj => State.reg_setReg_of_ne _ _ hj, rfl⟩, hsafe⟩
  exact (State.reg_setReg_self _ _ _).trans hall

end Sys2Proof.Machine
end

section
/-!
Move and convert (40_move_convert.md R60 to R66, O23 to O26): the words of a value that is cut, put together or given
a new word, then one effect per command.
-/

namespace Sys2Proof.Machine

/-! ### Words of a value -/

/-- A value of at most `k` words has no word at and above `k`. -/
theorem digit_of_lt_base_pow {p : Params} {v k j : Nat} (hv : v < base p ^ k) (hj : k ≤ j) : digit p v j = 0 := by
  rw [digit_eq, Nat.div_eq_of_lt (hv.trans_le (Nat.pow_le_pow_right (base_pos p) hj)), Nat.zero_mod]

/-- Word `i + k` of a value is word `k` of what stands from word `i` up. -/
theorem digit_add (p : Params) (v i k : Nat) : digit p v (i + k) = digit p (v / base p ^ i) k := by
  rw [digit_eq, digit_eq, pow_add, Nat.div_div_eq_div_mul]

/-- Cutting a value to its low `k` words keeps each of them. -/
theorem digit_mod_base_pow_of_lt {p : Params} {j k : Nat} (hjk : j < k) (v : Nat) :
    digit p (v % base p ^ k) j = digit p v j := by
  obtain ⟨m, rfl⟩ := Nat.exists_eq_add_of_lt hjk
  have hpow : base p ^ (j + m + 1) = base p ^ j * base p ^ (m + 1) := by rw [add_assoc, pow_add]
  have hdvd : base p ∣ base p ^ (m + 1) := dvd_pow_self _ m.succ_ne_zero
  rw [digit_eq, digit_eq, hpow, Nat.mod_mul_right_div_self, Nat.mod_mod_of_dvd _ hdvd]

/-- `trunc_B` keeps the `N` words of a value (00_scope.md section 4). -/
theorem digit_wrap {p : Params} {j : Nat} (hj : j < p.n) (v : Nat) : digit p (wrap p v) j = digit p v j := by
  rw [wrap, limit_eq_base_pow, digit_mod_base_pow_of_lt hj]

section LowWord
variable {p : Params} {d : Nat} (hd : d < base p) (u : Nat)
include hd

/-- Word 0 of the value with the word `d` below `u`. -/
theorem digit_mul_base_add_zero : digit p (u * base p + d) 0 = d := by
  rw [digit_zero, Nat.mul_add_mod_self_right, Nat.mod_eq_of_lt hd]

/-- The words above word 0 of the value with the word `d` below `u`. -/
theorem digit_mul_base_add_succ (j : Nat) : digit p (u * base p + d) (j + 1) = digit p u j := by
  rw [digit_succ, Nat.add_comm, Nat.add_mul_div_right _ _ (base_pos p), Nat.div_eq_of_lt hd, zero_add]

end LowWord

/-! ### Giving a value a new word -/

/-- The value `v` with `d` in the place of word `i`, as `LDW` computes it (40_move_convert.md R65). -/
def replaceDigit (p : Params) (v i d : Nat) : Nat := v - digit p v i * 2 ^ (p.w * i) + d * 2 ^ (p.w * i)

/-- The words below `i` stay, `d` comes above them, and the words above `i` come above that. -/
theorem replaceDigit_eq (p : Params) (v i d : Nat) :
    replaceDigit p v i d = base p ^ i * (v / base p ^ (i + 1) * base p + d) + v % base p ^ i := by
  have hsplit : v = base p ^ i * (v / base p ^ (i + 1) * base p) + v % base p ^ i + digit p v i * base p ^ i := by
    calc v = base p ^ (i + 1) * (v / base p ^ (i + 1)) + v % base p ^ (i + 1) := (Nat.div_add_mod _ _).symm
      _ = _ := by rw [mod_base_pow_succ]; ring
  have hpow : 2 ^ (p.w * i) = base p ^ i := by rw [base, pow_mul]
  rw [replaceDigit, hpow, Nat.sub_eq_of_eq_add hsplit]
  ring

theorem replaceDigit_mod (p : Params) (v i d : Nat) : replaceDigit p v i d % base p ^ i = v % base p ^ i := by
  rw [replaceDigit_eq, Nat.mul_add_mod, Nat.mod_mod]

theorem replaceDigit_div (p : Params) (v i d : Nat) :
    replaceDigit p v i d / base p ^ i = v / base p ^ (i + 1) * base p + d := by
  have hpos : 0 < base p ^ i := Nat.pow_pos (base_pos p)
  rw [replaceDigit_eq, Nat.mul_add_div hpos, Nat.div_eq_of_lt (Nat.mod_lt _ hpos), add_zero]

section NewWord
variable {p : Params} {d : Nat} (hd : d < base p) (v : Nat)
include hd

theorem digit_replaceDigit_self (i : Nat) : digit p (replaceDigit p v i d) i = d := by
  have hshift : digit p (replaceDigit p v i d) i = digit p (replaceDigit p v i d / base p ^ i) 0 := digit_add p _ i 0
  rw [hshift, replaceDigit_div, digit_mul_base_add_zero hd]

theorem digit_replaceDigit_of_ne {i j : Nat} (hj : j ≠ i) : digit p (replaceDigit p v i d) j = digit p v j := by
  rcases Nat.lt_or_gt_of_ne hj with hlt | hgt
  · rw [← digit_mod_base_pow_of_lt hlt, replaceDigit_mod, digit_mod_base_pow_of_lt hlt]
  · obtain ⟨k, rfl⟩ := Nat.exists_eq_add_of_lt hgt
    rw [add_assoc, digit_add, replaceDigit_div, digit_mul_base_add_succ hd, ← digit_add, add_assoc, add_comm 1 k]

end NewWord

/-! ### The commands -/

theorem Inv.din1_lt {s : State} (h : Inv s) : s.din1 < base s.par := by
  obtain ⟨-, -, -, -, -, -, hdin1, -⟩ := h
  exact hdin1

theorem writesReg_setReg (s : State) (d : Reg) (v : Nat) : WritesReg s (s.setReg d v) d v :=
  ⟨s.reg_setReg_self d v, fun _ hj => s.reg_setReg_of_ne v hj, s.setReg_eq_with d v⟩

/-- `{DIN1, DIN0}` is a value of two words. -/
theorem Inv.dinPair_lt {s : State} (h : Inv s) : s.dinPair < base s.par ^ 2 := by
  calc s.din1 * base s.par + s.din0
      < s.din1 * base s.par + base s.par := Nat.add_lt_add_left h.din0_lt _
    _ = (s.din1 + 1) * base s.par := (Nat.succ_mul _ _).symm
    _ ≤ base s.par * base s.par := Nat.mul_le_mul_right _ h.din1_lt
    _ = base s.par ^ 2 := (sq _).symm

/-- Settles O24: `SETW` loads a one-word value; `SETDW` loads the two words of `{DIN1, DIN0}`, as far as the register
has them. -/
theorem setCommandsLoadDataPorts : Obligations.SetCommandsLoadDataPorts := by
  intro s rd hinv
  obtain ⟨-, hn, -⟩ := hinv.par_ok
  have hword : s.din0 < base s.par ^ 1 := by rw [pow_one]; exact hinv.din0_lt
  refine ⟨⟨s.setReg rd s.din0, rfl, writesReg_setReg .., ?_⟩,
    ⟨s.setReg rd (wrap s.par s.dinPair), rfl, writesReg_setReg .., ?_⟩⟩ <;> rw [State.reg_setReg_self]
  · exact ⟨by rw [digit_zero, Nat.mod_eq_of_lt hinv.din0_lt], fun j hj => digit_of_lt_base_pow hword hj⟩
  · have hword0 : digit s.par s.dinPair 0 = s.din0 := digit_mul_base_add_zero hinv.din0_lt _
    refine ⟨?_, fun hn2 => ?_, fun hn1 => ?_, fun j hj => ?_⟩
    · rw [digit_wrap hn, hword0]
    · rw [digit_wrap hn2, State.dinPair, digit_mul_base_add_succ hinv.din0_lt, digit_zero,
        Nat.mod_eq_of_lt hinv.din1_lt]
    · rw [wrap, limit_eq_base_pow, hn1, pow_one, ← digit_zero, hword0]
    · exact digit_of_lt_base_pow ((Nat.mod_le _ _).trans_lt hinv.dinPair_lt) hj

/-- Settles O26: the register's value with word `imm` replaced has `DIN0` there and its old words elsewhere. -/
theorem ldwReplacesOneWord : Obligations.LdwReplacesOneWord := by
  intro s rx imm hinv
  refine ⟨fun himm => ?_, fun himm => exec_of_not_wellFormed (by simpa using himm)⟩
  refine ⟨s.setReg rx (replaceDigit s.par (s.reg rx) imm.toNat s.din0), exec_of_passes (wellFormed_ldw.mpr himm) id,
    writesReg_setReg .., ?_⟩
  rw [State.reg_setReg_self]
  exact ⟨replaceDigit_lt (hinv.reg_lt rx) hinv.din0_lt himm, digit_replaceDigit_self hinv.din0_lt ..,
    fun j hj => digit_replaceDigit_of_ne hinv.din0_lt _ hj⟩

/-- Settles O23: `MOV` is one register write. -/
theorem movCopiesRegister : Obligations.MovCopiesRegister := fun s rd ra =>
  ⟨s.setReg rd (s.reg ra), rfl, writesReg_setReg ..⟩

/-- Settles O25: each command assigns the words to the data ports, and `STW` is ill formed from word `N` up. -/
theorem getCommandsFillDataPorts : Obligations.GetCommandsFillDataPorts := by
  intro s ra imm
  refine ⟨rfl, ?_, fun himm => exec_of_passes (wellFormed_stw.mpr himm) id,
    fun himm => exec_of_not_wellFormed (by simpa using himm)⟩
  rw [exec_of_passes rfl id, assigns, digit_zero, digit_eq, pow_one]
  rfl

end Sys2Proof.Machine
end

section
/-!
Tracker and tests (41_tracker_tests.md R70 to R77, O27 to O32). The order and the bit length of a value `v` are each
said once as an exponent: the least `k` with `v < base^k` (`order_le_iff`) and with `v < 2^k` (`bitlen_le_iff`). What
the words and bits at and above them are, and how the two relate, follows from that. `GETBIT` and `CMP` read the value
word by word; each has one lemma that says it reads the whole value.
-/

namespace Sys2Proof.Machine

/-! ### Order and bit length as exponents -/

/-- A bound `m` that is tight for the powers of `c` is the least exponent whose power exceeds `v`. -/
theorem le_iff_lt_pow_of_tight {c m v : Nat} (hc : 0 < c) (hhigh : v < c ^ m) (hlow : 0 < m → c ^ (m - 1) ≤ v)
    {k : Nat} : m ≤ k ↔ v < c ^ k := by
  refine ⟨fun hmk => hhigh.trans_le (Nat.pow_le_pow_right hc hmk), fun hvk => ?_⟩
  by_contra hkm
  have hpow : c ^ k ≤ c ^ (m - 1) := Nat.pow_le_pow_right hc (by omega)
  exact absurd (hpow.trans (hlow (by omega))) (Nat.not_le.mpr hvk)

/-- A word is 0 or its leading bit is one above its logarithm (41_tracker_tests.md R74, `bitlen_W`). -/
theorem leadingBit_eq_log2_succ {v k : Nat} (hv : v < 2 ^ k) (h0 : v ≠ 0) : leadingBit v k = Nat.log2 v + 1 := by
  obtain ⟨hhigh, hlow⟩ := leadingBit_bounds hv
  have hpos : leadingBit v k ≠ 0 := fun hz => h0 (by simpa [hz] using hhigh)
  have hlog : Nat.log2 v = leadingBit v k - 1 :=
    (Nat.log2_eq_iff h0).mpr ⟨hlow (Nat.pos_of_ne_zero hpos), by rwa [Nat.sub_one_add_one hpos]⟩
  rw [hlog, Nat.sub_one_add_one hpos]

section InRange
variable {p : Params} {v : Nat} (hv : v < limit p)
include hv

theorem order_le_iff {k : Nat} : order p v ≤ k ↔ v < base p ^ k := by
  obtain ⟨-, hhigh, hlow⟩ := order_bounds hv
  exact le_iff_lt_pow_of_tight (base_pos p) hhigh hlow

theorem bitlen_le_iff {k : Nat} : bitlen p v ≤ k ↔ v < 2 ^ k := by
  obtain ⟨-, hhigh, hlow⟩ := bitlen_bounds hv
  exact le_iff_lt_pow_of_tight two_pos hhigh hlow

theorem bitlen_eq_zero_iff : bitlen p v = 0 ↔ v = 0 := by
  rw [← Nat.le_zero, bitlen_le_iff hv, pow_zero, Nat.lt_one_iff]

theorem order_pos (h0 : v ≠ 0) : 0 < order p v := Nat.pos_of_ne_zero fun hz => h0 ((order_eq_zero_iff hv).mp hz)

theorem bitlen_pos (h0 : v ≠ 0) : 0 < bitlen p v := Nat.pos_of_ne_zero fun hz => h0 ((bitlen_eq_zero_iff hv).mp hz)

/-- The order is the bit length in words, rounded up (41_tracker_tests.md R77): both sides are at most `k` exactly when
`v < 2^(W*k)`. -/
theorem order_eq_bitlen_ceilDiv (hw : 1 ≤ p.w) : order p v = (bitlen p v + p.w - 1) / p.w := by
  rw [← Nat.ceilDiv_eq_add_pred_div]
  refine eq_of_forall_ge_iff fun k => ?_
  calc order p v ≤ k ↔ v < 2 ^ (p.w * k) := by rw [order_le_iff hv, base, ← pow_mul]
    _ ↔ bitlen p v ⌈/⌉ p.w ≤ k := by rw [ceilDiv_le_iff_le_mul hw, bitlen_le_iff hv]

/-! ### The words and bits of a value around its order and bit length -/

theorem digit_of_order_le {j : Nat} (hj : order p v ≤ j) : digit p v j = 0 :=
  digit_of_lt_base_pow ((order_le_iff hv).mp le_rfl) hj

theorem testBit_of_bitlen_le {i : Nat} (hi : bitlen p v ≤ i) : v.testBit i = false :=
  Nat.testBit_lt_two_pow ((bitlen_le_iff hv).mp hi)

/-- The word the order names is not 0 (41_tracker_tests.md R73). -/
theorem digit_pred_order_ne_zero (h0 : v ≠ 0) : digit p v (order p v - 1) ≠ 0 := by
  obtain ⟨-, hhigh, hlow⟩ := order_bounds hv
  have hpos := order_pos hv h0
  have hquot : v / base p ^ (order p v - 1) < base p :=
    Nat.div_lt_of_lt_mul (by rwa [← pow_succ, Nat.sub_add_cancel hpos])
  rw [digit_eq, Nat.mod_eq_of_lt hquot]
  exact (Nat.div_pos (hlow hpos) (Nat.pow_pos (base_pos p))).ne'

/-- The bit the bit length names is set (41_tracker_tests.md R74). -/
theorem testBit_pred_bitlen (h0 : v ≠ 0) : v.testBit (bitlen p v - 1) = true := by
  obtain ⟨-, hhigh, hlow⟩ := bitlen_bounds hv
  have hpos := bitlen_pos hv h0
  exact Nat.testBit_of_two_pow_le_and_two_pow_add_one_gt (hlow hpos) (by rwa [Nat.sub_add_cancel hpos])

/-- The tracker's bit length: the words below the top one, and the top word's own (90_conflicts.md C6). -/
theorem bitlen_eq_words_add_log2 (h0 : v ≠ 0) :
    bitlen p v = (order p v - 1) * p.w + (Nat.log2 (digit p v (order p v - 1)) + 1) := by
  have htop := digit_pred_order_ne_zero hv h0
  obtain ⟨o, ho⟩ := Nat.exists_eq_succ_of_ne_zero (order_pos hv h0).ne'
  rw [ho, Nat.succ_sub_one] at htop ⊢
  rw [bitlen, ho, ← leadingBit_eq_log2_succ (digit_lt p v o) htop]

/-! ### One bit of a value -/

/-- Reading the bit through its word reads the bit of the value (41_tracker_tests.md R75). -/
theorem getBit_eq_testBit (imm : Nat) : getBit p v imm = v.testBit imm := by
  rw [getBit]
  split
  · next himm =>
    have hw : 0 < p.w := Nat.pos_of_ne_zero fun hz => by simp [Params.b, hz] at himm
    calc (digit p v (imm / p.w) / 2 ^ (imm % p.w) % 2 == 1)
        = (digit p v (imm / p.w)).testBit (imm % p.w) := by
          rw [Nat.testBit_eq_decide_div_mod_eq, beq_eq_decide]
      _ = v.testBit (imm % p.w + p.w * (imm / p.w)) := by
          rw [digit, base, Nat.testBit_mod_two_pow, Nat.testBit_div_two_pow, decide_eq_true (Nat.mod_lt _ hw),
            Bool.true_and]
      _ = v.testBit imm := by rw [Nat.mod_add_div]
  · next himm => exact (Nat.testBit_lt_two_pow (hv.trans_le (Nat.pow_le_pow_right two_pos (Nat.not_lt.mp himm)))).symm

end InRange

/-! ### The comparison from the top word down -/

/-- A larger word `j` outweighs whatever stands below it. -/
theorem mod_base_pow_succ_lt_of_digit_lt {p : Params} {a b j : Nat} (h : digit p a j < digit p b j) :
    a % base p ^ (j + 1) < b % base p ^ (j + 1) := by
  rw [mod_base_pow_succ, mod_base_pow_succ]
  calc a % base p ^ j + digit p a j * base p ^ j
      < base p ^ j + digit p a j * base p ^ j := Nat.add_lt_add_right (Nat.mod_lt _ (Nat.pow_pos (base_pos p))) _
    _ = (digit p a j + 1) * base p ^ j := by ring
    _ ≤ digit p b j * base p ^ j := Nat.mul_le_mul_right _ h
    _ ≤ b % base p ^ j + digit p b j * base p ^ j := Nat.le_add_left _ _

/-- The comparison over `k` words compares the values of these words. -/
theorem cmpFrom_eq_compare (p : Params) (a b k : Nat) :
    cmpFrom p a b k = compare (a % base p ^ k) (b % base p ^ k) := by
  induction k with
  | zero => simp [cmpFrom, Nat.mod_one]
  | succ j ih =>
    rw [cmpFrom]
    split
    · next heq => rw [ih, mod_base_pow_succ, mod_base_pow_succ, heq]; simp [Nat.compare_eq_ite_lt]
    · next hne =>
      split
      · next hlt => exact (compare_lt_iff_lt.mpr (mod_base_pow_succ_lt_of_digit_lt hlt)).symm
      · next hge => exact (compare_gt_iff_gt.mpr (mod_base_pow_succ_lt_of_digit_lt (by omega))).symm

/-- The document's comparison compares the values: no word at or above both orders differs (41_tracker_tests.md R76). -/
theorem cmpWords_eq_compare {p : Params} {a b : Nat} (ha : a < limit p) (hb : b < limit p) :
    cmpWords p a b = compare a b := by
  rw [cmpWords, cmpFrom_eq_compare, Nat.mod_eq_of_lt ((order_le_iff ha).mp (le_max_left ..)),
    Nat.mod_eq_of_lt ((order_le_iff hb).mp (le_max_right ..))]

/-! ### The commands -/

/-- Whatever is at most `B` fits the 32 bits of `SR` (00_scope.md R7). -/
theorem lt_two_pow_32_of_le_b {p : Params} (hp : p.ok) {k : Nat} (hk : k ≤ p.b) : k < 2 ^ 32 := by
  obtain ⟨-, -, hb⟩ := hp
  omega

section Result
variable {s : State} (hinv : Inv s) (ra : Reg)
include hinv

theorem order_lt_two_pow_32 : order s.par (s.reg ra) < 2 ^ 32 :=
  lt_two_pow_32_of_le_b hinv.par_ok (order_le_b hinv.par_ok.left (hinv.reg_lt ra))

theorem bitlen_lt_two_pow_32 : bitlen s.par (s.reg ra) < 2 ^ 32 := by
  obtain ⟨hle, -, -⟩ := bitlen_bounds (hinv.reg_lt ra)
  exact lt_two_pow_32_of_le_b hinv.par_ok hle

/-- `SR` holds the order, and nothing of it is lost to the width of `SR`. -/
theorem exec_order_sr : ∃ t, exec (.order ra) s = .next t ∧ t.sr.toNat = order s.par (s.reg ra) :=
  ⟨_, rfl, BitVec.toNat_ofNat .. ▸ Nat.mod_eq_of_lt (order_lt_two_pow_32 hinv ra)⟩

/-- `SR` holds the bit length, and nothing of it is lost to the width of `SR`. -/
theorem exec_bitlen_sr : ∃ u, exec (.bitlen ra) s = .next u ∧ u.sr.toNat = bitlen s.par (s.reg ra) :=
  ⟨_, rfl, BitVec.toNat_ofNat .. ▸ Nat.mod_eq_of_lt (bitlen_lt_two_pow_32 hinv ra)⟩

end Result

/-- Settles O28: the bit read through its word is the bit of the value, and a register has no bit at and above `B`. -/
theorem getbitReadsBit : Obligations.GetbitReadsBit := by
  intro s ra imm hinv
  have hv := hinv.reg_lt ra
  refine ⟨?_, fun himm => Nat.testBit_lt_two_pow (hv.trans_le (Nat.pow_le_pow_right two_pos himm))⟩
  rw [← getBit_eq_testBit hv]
  rfl

/-- Settles O29: the order is the exponent `order_le_iff` says, so its word is not 0 and those above are. -/
theorem orderFindsHighestWord : Obligations.OrderFindsHighestWord := by
  intro s ra hinv
  have hv := hinv.reg_lt ra
  obtain ⟨hle, -, -⟩ := order_bounds hv
  exact ⟨order s.par (s.reg ra), rfl, hle, order_lt_two_pow_32 hinv ra, (order_eq_zero_iff hv).mpr,
    fun h0 => ⟨order_pos hv h0, digit_pred_order_ne_zero hv h0⟩, fun _ => digit_of_order_le hv⟩

/-- Settles O30: the bit length is the exponent `bitlen_le_iff` says, so its bit is set and those above are not. -/
theorem bitlenFindsHighestBit : Obligations.BitlenFindsHighestBit := by
  intro s ra hinv
  have hv := hinv.reg_lt ra
  obtain ⟨hle, -, -⟩ := bitlen_bounds hv
  refine ⟨bitlen s.par (s.reg ra), rfl, hle, bitlen_lt_two_pow_32 hinv ra, (bitlen_eq_zero_iff hv).mpr,
    fun h0 => ⟨bitlen_pos hv h0, testBit_pred_bitlen hv h0⟩, fun _ => testBit_of_bitlen_le hv, ?_⟩
  rintro o top h0 rfl rfl
  exact bitlen_eq_words_add_log2 hv h0

/-- Settles O31: what `ORDER` and `BITLEN` leave in `SR` are the two exponents, which the lemmas above relate. -/
theorem orderAndBitlenRelate : Obligations.OrderAndBitlenRelate := by
  intro s ra hinv
  have hv := hinv.reg_lt ra
  obtain ⟨hw, -, -⟩ := hinv.par_ok
  obtain ⟨t, ht, hsrt⟩ := exec_order_sr hinv ra
  obtain ⟨u, hu, hsru⟩ := exec_bitlen_sr hinv ra
  obtain ⟨-, horderHigh, horderLow⟩ := order_bounds hv
  obtain ⟨-, hbitlenHigh, hbitlenLow⟩ := bitlen_bounds hv
  refine ⟨t, u, ht, hu, ?_⟩
  rw [hsrt, hsru]
  exact ⟨order_eq_bitlen_ceilDiv hv hw, (order_eq_zero_iff hv).symm, (bitlen_eq_zero_iff hv).symm,
    fun h0 => ⟨hbitlenLow (bitlen_pos hv h0), hbitlenHigh, horderLow (order_pos hv h0), horderHigh⟩,
    fun _ hi _ => testBit_of_bitlen_le hv hi, testBit_pred_bitlen hv,
    fun _ hj _ => digit_of_order_le hv hj, digit_pred_order_ne_zero hv⟩

/-- Settles O32: `CMP` compares the values as numbers, and so does the comparison word by word. -/
theorem cmpComparesValues : Obligations.CmpComparesValues := fun _ ra rb hinv =>
  ⟨rfl, cmpWords_eq_compare (hinv.reg_lt ra) (hinv.reg_lt rb)⟩

/-- Settles O27: each test writes `T`, and bit 0 is the remainder modulo 2. -/
theorem testsWriteFlagT : Obligations.TestsWriteFlagT := by
  intro s ra
  have heven : (!(s.reg ra).testBit 0) = decide (s.reg ra % 2 = 0) := by
    rw [Nat.testBit_zero, ← decide_not]
    exact decide_eq_decide.mpr Nat.mod_two_ne_one
  refine ⟨rfl, ?_, ?_⟩
  · rw [Nat.testBit_zero]
    rfl
  · rw [heven]
    rfl

end Sys2Proof.Machine
end

section
/-!
Adder and subtractor (42_addsub.md R80 to R83, O33 to O35). What the two chains compute is said in Laws/Units; here for
operands in range: the carry out, the difference in the two cases of R81, then the effect that `ADD` and `SUB` share.
-/

namespace Sys2Proof.Machine

/-! ### The units on operands in range -/

section InRange
variable {p : Params} {a b : Nat} (ha : a < limit p) (hb : b < limit p)
include ha hb

theorem addUnit_snd_of_lt : (addUnit p a b).2 = (a + b) / limit p := by
  rw [addUnit_snd, Nat.mod_eq_of_lt ha, Nat.mod_eq_of_lt hb]

/-- The carry out of word `N-1` is one bit (42_addsub.md R80). -/
theorem add_div_limit_le_one : (a + b) / limit p ≤ 1 :=
  Nat.le_of_lt_succ (Nat.div_lt_of_lt_mul (by omega))

/-- The difference wraps exactly when it would be negative (42_addsub.md R81, R83). -/
theorem subUnit_fst_of_lt : (subUnit p a b).1 = if b ≤ a then a - b else limit p + a - b := by
  rw [(subUnit_of_lt ha hb).left]
  split
  · next hge => rw [Nat.sub_add_comm hge, Nat.add_mod_right, Nat.mod_eq_of_lt (by omega)]
  · next hlt => rw [Nat.add_comm, Nat.mod_eq_of_lt (by omega)]

/-- The borrow out of word `N-1`, as `FLAGS.CY` takes it (42_addsub.md R81). -/
theorem subUnit_borrow_of_lt : decide ((subUnit p a b).2 = 1) = decide (a < b) := by
  simp [(subUnit_of_lt ha hb).right]

/-- Subtracting is adding the complement (42_addsub.md R82). -/
theorem subUnit_eq_addUnit_complement : (subUnit p a b).1 = (addUnit p a (limit p - b)).1 := by
  rw [(subUnit_of_lt ha hb).left, addUnit_fst, Nat.add_sub_assoc hb.le]

/-- Subtracting what was added gives the value back, though the sum wrapped (42_addsub.md R82). -/
theorem subUnit_addUnit_cancel : (subUnit p (addUnit p a b).1 b).1 = a := by
  rw [subUnit_eq_addUnit_complement (addUnit_lt p a b) hb, addUnit_fst, addUnit_fst, Nat.mod_add_mod,
    Nat.add_assoc, Nat.add_sub_cancel' hb.le, Nat.add_mod_right, Nat.mod_eq_of_lt ha]

end InRange

theorem addUnit_zero {p : Params} {a : Nat} (ha : a < limit p) : (addUnit p a 0).1 = a := by
  rw [addUnit_fst, Nat.add_zero, Nat.mod_eq_of_lt ha]

theorem addUnit_comm (p : Params) (a b : Nat) : (addUnit p a b).1 = (addUnit p b a).1 := by
  rw [addUnit_fst, addUnit_fst, Nat.add_comm]

theorem addUnit_assoc (p : Params) (a b c : Nat) :
    (addUnit p (addUnit p a b).1 c).1 = (addUnit p a (addUnit p b c).1).1 := by
  simp only [addUnit_fst, Nat.mod_add_mod, Nat.add_mod_mod, Nat.add_assoc]

/-! ### The commands -/

theorem writesRegAndCY_setReg_setCY (s : State) (d : Reg) (v : Nat) (c : Bool) :
    WritesRegAndCY s ((s.setReg d v).setCY c) d v c :=
  ⟨s.reg_setReg_self d v, fun _ hj => s.reg_setReg_of_ne v hj, rfl⟩

/-- `ADD` writes the adder's two results. -/
theorem exec_add (s : State) (rd ra rb : Reg) : ∃ t, exec (.add rd ra rb) s = .next t ∧
    WritesRegAndCY s t rd (addUnit s.par (s.reg ra) (s.reg rb)).1
      (decide ((addUnit s.par (s.reg ra) (s.reg rb)).2 = 1)) :=
  ⟨_, rfl, writesRegAndCY_setReg_setCY ..⟩

/-- `SUB` writes the subtractor's two results. -/
theorem exec_sub (s : State) (rd ra rb : Reg) : ∃ t, exec (.sub rd ra rb) s = .next t ∧
    WritesRegAndCY s t rd (subUnit s.par (s.reg ra) (s.reg rb)).1
      (decide ((subUnit s.par (s.reg ra) (s.reg rb)).2 = 1)) :=
  ⟨_, rfl, writesRegAndCY_setReg_setCY ..⟩

/-- Settles O33: the adder's two results are the remainder and the quotient of the sum by `2^B`. -/
theorem addWrapsWithCarry : Obligations.AddWrapsWithCarry := by
  intro s rd ra rb hinv
  have ha := hinv.reg_lt ra
  have hb := hinv.reg_lt rb
  obtain ⟨t, hexec, heffect⟩ := exec_add s rd ra rb
  rw [addUnit_fst, addUnit_snd_of_lt ha hb] at heffect
  exact ⟨t, hexec, heffect, add_div_limit_le_one ha hb⟩

/-- Settles O34: the subtractor's two results are the wrapped difference and whether it wrapped. -/
theorem subWrapsWithBorrow : Obligations.SubWrapsWithBorrow := by
  intro s rd ra rb hinv
  have ha := hinv.reg_lt ra
  have hb := hinv.reg_lt rb
  obtain ⟨t, hexec, heffect⟩ := exec_sub s rd ra rb
  rw [subUnit_fst_of_lt ha hb, subUnit_borrow_of_lt ha hb] at heffect
  exact ⟨t, hexec, heffect⟩

/-- Settles O35: the laws are those of addition modulo `2^B`, where the subtractor adds the complement. -/
theorem adderAndSubtractorLaws : Obligations.AdderAndSubtractorLaws := fun p a b c ha hb _ =>
  ⟨subUnit_addUnit_cancel ha hb, addUnit_zero ha, addUnit_comm p a b, addUnit_assoc p a b c,
    fun _ => subUnit_eq_addUnit_complement ha hb⟩

end Sys2Proof.Machine
end

section
/-!
Multiplier (43_multiply.md R85, R86, R88, O36 to O38). That the schoolbook loops form the product is said in Laws/Units;
here the laws of the product modulo `2^B`, then the effect of `MULX`, which writes two registers.
-/

namespace Sys2Proof.Machine

/-! ### The units -/

theorem mulLow_one {p : Params} {a : Nat} (ha : a < limit p) : mulLow p a 1 = a := by
  rw [mulLow_eq, Nat.mul_one, Nat.mod_eq_of_lt ha]

theorem mulLow_comm (p : Params) (a b : Nat) : mulLow p a b = mulLow p b a := by
  rw [mulLow_eq, mulLow_eq, Nat.mul_comm]

theorem mulLow_assoc (p : Params) (a b c : Nat) : mulLow p (mulLow p a b) c = mulLow p a (mulLow p b c) := by
  simp only [mulLow_eq, Nat.mod_mul_mod, Nat.mul_mod_mod, Nat.mul_assoc]

/-- `MUL` distributes over `ADD`, though the sum and the products wrapped (43_multiply.md R88). -/
theorem mulLow_addUnit (p : Params) (a b c : Nat) :
    mulLow p a (addUnit p b c).1 = (addUnit p (mulLow p a b) (mulLow p a c)).1 := by
  simp only [mulLow_eq, addUnit_fst, Nat.mul_mod_mod, Nat.mul_add]
  exact Nat.add_mod ..

/-- The truncating multiplier is the low half of the exact one (43_multiply.md R88). -/
theorem mulLow_eq_mulWide_mod (p : Params) (a b : Nat) : mulLow p a b = mulWide p a b % limit p := by
  rw [mulLow_eq, mulWide_eq, ← Nat.mul_mod]

theorem mulWide_of_lt {p : Params} {a b : Nat} (ha : a < limit p) (hb : b < limit p) : mulWide p a b = a * b := by
  rw [mulWide_eq, Nat.mod_eq_of_lt ha, Nat.mod_eq_of_lt hb]

/-! ### The commands -/

/-- Two register writes, to different registers. -/
theorem writesTwoRegs_setReg_setReg (s : State) {d e : Reg} (hne : d ≠ e) (v u : Nat) :
    WritesTwoRegs s ((s.setReg d v).setReg e u) d v e u := by
  refine ⟨?_, State.reg_setReg_self .., fun j hjd hje => ?_, rfl⟩
  · rw [State.reg_setReg_of_ne _ _ hne, State.reg_setReg_self]
  · rw [State.reg_setReg_of_ne _ _ hje, State.reg_setReg_of_ne _ _ hjd]

/-- `MULX` with two destinations writes the halves of the exact product. -/
theorem exec_mulx_of_ne {rd rc : Reg} (hne : rd ≠ rc) (s : State) (ra rb : Reg) :
    ∃ t, exec (.mulx rd ra rb rc) s = .next t ∧
      WritesTwoRegs s t rd (mulWide s.par (s.reg ra) (s.reg rb) % limit s.par)
        rc (mulWide s.par (s.reg ra) (s.reg rb) / limit s.par) :=
  ⟨_, exec_of_passes (wellFormed_mulx.mpr hne) id, writesTwoRegs_setReg_setReg s hne _ _⟩

/-- Settles O36: `MUL` is one register write, and the schoolbook loop's words are the product modulo `2^B`. -/
theorem mulKeepsLowBits : Obligations.MulKeepsLowBits := by
  intro s rd ra rb
  have hlow : mulLow s.par (s.reg ra) (s.reg rb) = s.reg ra * s.reg rb % 2 ^ s.par.b := mulLow_eq ..
  rw [← hlow]
  exact ⟨_, rfl, writesReg_setReg ..⟩

/-- Settles O37: with two destinations the halves are those of the product, which `Nat.div_add_mod'` puts together again;
with one the static check fails. -/
theorem mulxKeepsWholeProduct : Obligations.MulxKeepsWholeProduct := by
  intro s rd ra rb rc hinv
  by_cases heq : rd = rc
  · exact ⟨_, exec_of_not_wellFormed (by simpa using heq), fun _ => rfl, fun hne => absurd heq hne⟩
  · obtain ⟨t, hexec, heffect⟩ := exec_mulx_of_ne heq s ra rb
    rw [mulWide_of_lt (hinv.reg_lt ra) (hinv.reg_lt rb)] at heffect
    refine ⟨t, hexec, fun h => absurd h heq, fun _ => ⟨heffect, ?_⟩⟩
    obtain ⟨hlow, hhigh, -⟩ := heffect
    rw [hlow, hhigh]
    exact Nat.div_add_mod' ..

/-- Settles O38: the laws are those of multiplication modulo `2^B`. -/
theorem multiplierLaws : Obligations.MultiplierLaws := fun p a b c ha _ _ =>
  ⟨mulLow_one ha, mulLow_comm p a b, mulLow_assoc p a b c, mulLow_addUnit p a b c, mulLow_eq_mulWide_mod p a b⟩

end Sys2Proof.Machine
end

section
/-!
Divide (44_divide.md R90 to R96, O39 to O42). The engine's loop is followed from any turn on: its result is the quotient
and the remainder of what is left of the dividend, whichever admissible estimates the turns take. Then the two words
that the bottom+1 estimate reads, and the effects of `DIV` and `DIVX`, which write two registers.
-/

namespace Sys2Proof.Machine

/-! ### The loop, for every admissible estimate -/

section Turn
variable {p : Params} {est : Nat → Nat → Nat → Nat} {D A : Nat}

/-- The loop ends at position 0 when the window is smaller than the divisor (44_divide.md R92). -/
theorem longDivLoop_done (h : A / base p ^ 0 < D) (fuel Q : Nat) :
    longDivLoop p est D (fuel + 1) A Q 0 = some (Q, A) := if_pos h

/-- The loop goes one position down when the window is smaller than the divisor. -/
theorem longDivLoop_down {k : Nat} (h : A / base p ^ (k + 1) < D) (fuel Q : Nat) :
    longDivLoop p est D (fuel + 1) A Q (k + 1) = longDivLoop p est D fuel A Q k := if_pos h

/-- The loop subtracts the estimated multiple of the divisor when the window is not smaller. -/
theorem longDivLoop_subtract {shf : Nat} (h : ¬A / base p ^ shf < D) (fuel Q : Nat) :
    longDivLoop p est D (fuel + 1) A Q shf =
      longDivLoop p est D fuel (A - D * est A D shf * base p ^ shf) (Q + est A D shf * base p ^ shf) shf := by
  cases shf <;> exact if_neg h

end Turn

/-- Under the loop's invariant one word is left of the quotient from position `shf` up (44_divide.md R94). -/
theorem quotient_word_lt_base {p : Params} {A D shf : Nat} (hinv : A < D * base p ^ (shf + 1)) :
    A / D / base p ^ shf < base p := by
  rw [Nat.div_div_eq_div_mul]
  exact Nat.div_lt_of_lt_mul (hinv.trans_eq (by rw [pow_succ, Nat.mul_assoc]))

/-- What a subtract turn does with an estimate of at most the window's digit: it takes `e * base^shf` off the quotient
that is left, so `e` off its word at `shf`, and leaves the remainder (44_divide.md R94). -/
theorem quotient_remainder_after_subtract {p : Params} {A D e shf : Nat} (hD : 0 < D)
    (he : e ≤ A / base p ^ shf / D) :
    e * base p ^ shf ≤ A / D ∧ (A - D * e * base p ^ shf) / D = A / D - e * base p ^ shf ∧
      (A - D * e * base p ^ shf) / D / base p ^ shf = A / D / base p ^ shf - e ∧
      (A - D * e * base p ^ shf) % D = A % D := by
  have hpow : 0 < base p ^ shf := Nat.pow_pos (base_pos p)
  have hquot : e * base p ^ shf ≤ A / D := by
    rwa [← Nat.le_div_iff_mul_le hpow, Nat.div_right_comm]
  have hle : D * (e * base p ^ shf) ≤ A := by
    rwa [Nat.mul_comm, ← Nat.le_div_iff_mul_le hD]
  rw [Nat.mul_assoc, Nat.sub_mul_div, Nat.sub_mul_mod hle]
  refine ⟨hquot, rfl, ?_, rfl⟩
  rw [Nat.mul_comm, Nat.sub_mul_div]

/-- From every turn that meets the invariant the loop adds the rest of the quotient and leaves the remainder. The word
of the quotient at `shf` bounds the subtract turns left at `shf`, and `base` bounds the turns at each position below. -/
theorem longDivLoop_eq {p : Params} {est : Nat → Nat → Nat → Nat} {D : Nat} (hD : 0 < D) (hest : Admissible p est D)
    {fuel A shf : Nat} (Q : Nat) (hinv : A < D * base p ^ (shf + 1))
    (hfuel : A / D / base p ^ shf + shf * base p < fuel) :
    longDivLoop p est D fuel A Q shf = some (Q + A / D, A % D) := by
  induction fuel generalizing A Q shf with
  | zero => exact absurd hfuel (Nat.not_lt_zero _)
  | succ fuel ih =>
    by_cases hwnd : A / base p ^ shf < D
    · cases shf with
      | zero =>
        rw [longDivLoop_done hwnd]
        rw [pow_zero, Nat.div_one] at hwnd
        rw [Nat.div_eq_of_lt hwnd, Nat.mod_eq_of_lt hwnd, Nat.add_zero]
      | succ k =>
        have hinv' : A < D * base p ^ (k + 1) := (Nat.div_lt_iff_lt_mul (Nat.pow_pos (base_pos p))).mp hwnd
        have hword := quotient_word_lt_base hinv'
        have hturns : (k + 1) * base p < fuel + 1 := (Nat.le_add_left _ _).trans_lt hfuel
        rw [Nat.succ_mul] at hturns
        rw [longDivLoop_down hwnd]
        exact ih Q hinv' (by omega)
    · obtain ⟨hpos, hle⟩ := hest A shf (Nat.not_lt.mp hwnd) hinv
      obtain ⟨hquot, hdiv, hword, hmod⟩ := quotient_remainder_after_subtract hD hle
      have hstep : est A D shf ≤ A / D / base p ^ shf :=
        (Nat.le_div_iff_mul_le (Nat.pow_pos (base_pos p))).mpr hquot
      rw [longDivLoop_subtract hwnd, ih _ ((Nat.sub_le _ _).trans_lt hinv) (by rw [hword]; omega), hdiv, hmod,
        Nat.add_assoc, Nat.add_sub_cancel' hquot]

/-- Settles O41: the first position `o1 - o2` meets the loop's invariant, and a dividend of smaller order is its own
remainder. -/
theorem longDivisionEngineIsExact : Obligations.LongDivisionEngineIsExact := by
  intro p est fuel A D _ hA hD hD0 hest hfuel
  have hA' : A < base p ^ (2 * p.n) := by rwa [two_mul, pow_add, ← limit_eq_base_pow]
  obtain ⟨ho1, hhigh, -⟩ := orderOn_bounds hA'
  obtain ⟨-, -, hlow⟩ := order_bounds hD
  have ho2 : 0 < order p D := order_pos hD hD0
  rw [longDiv]
  split
  · next hlt =>
    have hAD : A < D := hhigh.trans_le ((Nat.pow_le_pow_right (base_pos p) (by omega)).trans (hlow ho2))
    rw [Nat.div_eq_of_lt hAD, Nat.mod_eq_of_lt hAD]
  · next hge =>
    have hinv : A < D * base p ^ (orderOn p (2 * p.n) A - order p D + 1) := by
      calc A < base p ^ orderOn p (2 * p.n) A := hhigh
        _ = base p ^ (order p D - 1) * base p ^ (orderOn p (2 * p.n) A - order p D + 1) := by
          rw [← pow_add]
          congr 1
          omega
        _ ≤ D * base p ^ (orderOn p (2 * p.n) A - order p D + 1) := Nat.mul_le_mul_right _ (hlow ho2)
    have hturns : (orderOn p (2 * p.n) A - order p D + 1) * base p ≤ 2 * p.n * base p :=
      Nat.mul_le_mul_right _ (by omega)
    have hword := quotient_word_lt_base hinv
    rw [Nat.succ_mul] at hturns
    rw [longDivLoop_eq (Nat.pos_of_ne_zero hD0) hest 0 hinv (by omega), Nat.zero_add]

/-! ### The bottom+1 estimate -/

/-- The two words from word `j` up of a value that ends there. -/
theorem two_words_eq {p : Params} {v j : Nat} (hv : v < base p ^ (j + 2)) :
    digit p v (j + 1) * base p + digit p v j = v / base p ^ j := by
  have hlt : v / base p ^ j / base p < base p := by
    rw [Nat.div_div_eq_div_mul, ← pow_succ]
    exact Nat.div_lt_of_lt_mul (by rwa [← pow_succ])
  rw [digit_add, digit_succ, digit_zero, digit_eq, Nat.mod_eq_of_lt hlt, Nat.div_add_mod']

/-- The top word of a value is what stands above the words below it. -/
theorem digit_pred_order {p : Params} {v : Nat} (hv : v < limit p) (h0 : v ≠ 0) :
    digit p v (order p v - 1) = v / base p ^ (order p v - 1) := by
  obtain ⟨-, hhigh, -⟩ := order_bounds hv
  rw [digit_eq, Nat.mod_eq_of_lt (Nat.div_lt_of_lt_mul _)]
  rwa [← pow_succ, Nat.sub_add_cancel (order_pos hv h0)]

/-- Dividing the leading parts, the divisor's rounded up, never overestimates ("capped so the estimate never exceeds the
true digit", 44_divide.md R93). -/
theorem leading_div_le (v D : Nat) {c : Nat} (hc : 0 < c) (hD : 0 < D) : v / c / (D / c + 1) ≤ v / D := by
  have hup : D ≤ c * (D / c + 1) := (Nat.lt_mul_div_succ D hc).le
  rw [Nat.div_div_eq_div_mul]
  exact Nat.div_le_div_left hup hD

/-- Under the loop's invariant the words the estimate reads are the leading parts of the window and of the divisor. -/
theorem estimateBottomPlusOne_eq {p : Params} {A D shf : Nat} (hD : D < limit p) (hD0 : D ≠ 0)
    (hinv : A < D * base p ^ (shf + 1)) :
    estimateBottomPlusOne p A D shf =
      max 1 (A / base p ^ shf / base p ^ (order p D - 1) / (D / base p ^ (order p D - 1) + 1)) := by
  obtain ⟨-, hhigh, -⟩ := order_bounds hD
  have hpos := order_pos hD hD0
  have hA : A < base p ^ (shf + (order p D - 1) + 2) := by
    calc A < D * base p ^ (shf + 1) := hinv
      _ ≤ base p ^ order p D * base p ^ (shf + 1) := Nat.mul_le_mul_right _ hhigh.le
      _ = base p ^ (shf + (order p D - 1) + 2) := by
        rw [← pow_add]
        congr 1
        omega
  simp only [estimateBottomPlusOne]
  rw [Nat.add_sub_assoc hpos, two_words_eq hA, digit_pred_order hD hD0, pow_add,
    Nat.div_div_eq_div_mul A (base p ^ shf)]

/-- Settles O42: the estimate is at most the window's digit, which the invariant keeps below `base`. -/
theorem bottomPlusOneIsAdmissible : Obligations.BottomPlusOneIsAdmissible := by
  intro p D _ hD hD0
  have hDpos := Nat.pos_of_ne_zero hD0
  have hadm : Admissible p (estimateBottomPlusOne p) D := by
    intro A shf hwnd hinv
    rw [estimateBottomPlusOne_eq hD hD0 hinv]
    exact ⟨le_max_left _ _,
      max_le (Nat.div_pos hwnd hDpos) (leading_div_le _ _ (Nat.pow_pos (base_pos p)) hDpos)⟩
  refine ⟨hadm, fun A shf hwnd hinv => ?_⟩
  obtain ⟨-, hle⟩ := hadm A shf hwnd hinv
  rw [Nat.div_right_comm] at hle
  exact hle.trans_lt (quotient_word_lt_base hinv)

/-! ### The commands -/

/-- Every command has a next state: the record of the first check that fails (30_encoding.md R45 steps 4 to 6), or the
state after its assignments. -/
theorem exec_outcome (i : Instr) (s : State) : ∃ t, exec i s = .next t ∧
    (¬ i.wellFormed s.par.n → RecordsFault s t .illegal i) ∧
    (i.wellFormed s.par.n → zeroDivisor i s → RecordsFault s t .div0 i) ∧
    (i.wellFormed s.par.n → ¬ zeroDivisor i s → t = s.assignAll (assigns i s)) := by
  by_cases hwf : i.wellFormed s.par.n
  · by_cases hz : zeroDivisor i s
    · exact ⟨_, exec_of_zeroDivisor hwf hz, fun h => absurd hwf h, fun _ _ => rfl, fun _ h => absurd hz h⟩
    · exact ⟨_, exec_of_passes hwf hz, fun h => absurd hwf h, fun _ h => absurd h hz, fun _ _ => rfl⟩
  · exact ⟨_, exec_of_not_wellFormed hwf, fun _ => rfl, fun h => absurd h hwf, fun h => absurd h hwf⟩

/-- `DIV` writes the remainder to the receiver and the quotient to `rd`. -/
theorem writesTwoRegs_div {s : State} {rd ra : Reg} (hne : rd ≠ ra) (rb : Reg) :
    WritesTwoRegs s (s.assignAll (assigns (.div rd ra rb) s))
      ra (s.reg ra % s.reg rb) rd (s.reg ra / s.reg rb) :=
  writesTwoRegs_setReg_setReg s hne.symm _ _

/-- `DIVX` writes the remainder to the receiver and the quotient's low `B` bits to `rd`. -/
theorem writesTwoRegs_divx {s : State} {rd ra : Reg} (hne : rd ≠ ra) (rb rc : Reg) :
    WritesTwoRegs s (s.assignAll (assigns (.divx rd ra rb rc) s))
      ra ((s.reg rc * limit s.par + s.reg ra) % s.reg rb)
      rd ((s.reg rc * limit s.par + s.reg ra) / s.reg rb % limit s.par) :=
  writesTwoRegs_setReg_setReg s hne.symm _ _

/-- A high half below the divisor keeps the quotient of a double-width dividend in `B` bits (44_divide.md R91). -/
theorem double_div_lt {m h l d : Nat} (hl : l < m) (hh : h < d) : (h * m + l) / d < m := by
  apply Nat.div_lt_of_lt_mul
  calc h * m + l < h * m + m := Nat.add_lt_add_left hl _
    _ = (h + 1) * m := (Nat.succ_mul h m).symm
    _ ≤ d * m := Nat.mul_le_mul_right _ hh

/-- Settles O39: the two results are put together by `Nat.div_add_mod'`. -/
theorem divLeavesQuotientAndRemainder : Obligations.DivLeavesQuotientAndRemainder := by
  intro s rd ra rb
  obtain ⟨t, hexec, hillegal, hdiv0, hpass⟩ := exec_outcome (.div rd ra rb) s
  rw [wellFormed_div] at hillegal hdiv0 hpass
  refine ⟨t, hexec, fun heq => hillegal (not_not_intro heq), hdiv0, fun hne hd => ?_⟩
  obtain rfl := hpass hne hd
  have heffect := writesTwoRegs_div (s := s) hne rb
  refine ⟨heffect, ?_⟩
  obtain ⟨hrem, hquot, -⟩ := heffect
  rw [hrem, hquot]
  exact ⟨Nat.div_add_mod' .., Nat.mod_lt _ (Nat.pos_of_ne_zero hd)⟩

/-- Settles O40: a high half below the divisor, and so the high half 0, leaves the quotient whole. -/
theorem divxDividesDoubleWidth : Obligations.DivxDividesDoubleWidth := by
  intro s rd ra rb rc hinv
  obtain ⟨t, hexec, hillegal, hdiv0, hpass⟩ := exec_outcome (.divx rd ra rb rc) s
  rw [wellFormed_divx] at hillegal hdiv0 hpass
  refine ⟨t, hexec, fun heq => hillegal (not_not_intro heq), hdiv0, ?_⟩
  rintro hne hd _ rfl
  obtain rfl := hpass hne hd
  have heffect := writesTwoRegs_divx (s := s) hne rb rc
  refine ⟨heffect, ?_⟩
  obtain ⟨hrem, hquot, -⟩ := heffect
  rw [hrem, hquot]
  have hwhole (hh : s.reg rc < s.reg rb) :
      (s.reg rc * limit s.par + s.reg ra) / s.reg rb % limit s.par =
        (s.reg rc * limit s.par + s.reg ra) / s.reg rb :=
    Nat.mod_eq_of_lt (double_div_lt (hinv.reg_lt ra) hh)
  refine ⟨fun hh => ?_, fun hzero => ?_⟩
  · rw [hwhole hh]
    exact Nat.div_add_mod' ..
  · rw [hwhole (hzero ▸ Nat.pos_of_ne_zero hd), hzero, Nat.zero_mul, Nat.zero_add]
    exact ⟨rfl, rfl⟩

end Sys2Proof.Machine
end

section
/-!
Shift (45_shift.md R100 to R102, O43 to O45). The units are a multiplication and a division by `2^k` (`shlUnit_eq`,
`shrUnit_eq`); left then right gives the value back exactly when its product with `2^k` has at most `B` bits.
-/

namespace Sys2Proof.Machine

/-! ### The units -/

/-- A left shift by the width or more leaves no bit (45_shift.md R100). -/
theorem mul_two_pow_mod_eq_zero {b k : Nat} (hbk : b ≤ k) (a : Nat) : a * 2 ^ k % 2 ^ b = 0 :=
  Nat.mod_eq_zero_of_dvd (dvd_mul_of_dvd_right (pow_dvd_pow 2 hbk) a)

/-- A right shift by the width or more leaves no bit (45_shift.md R101). -/
theorem div_two_pow_eq_zero {p : Params} {x k : Nat} (hx : x < limit p) (hk : p.b ≤ k) : x / 2 ^ k = 0 :=
  Nat.div_eq_of_lt (hx.trans_le (Nat.pow_le_pow_right Nat.two_pos hk))

/-- The bit length says when a product with `2^k` stays below `2^B`. -/
theorem mul_two_pow_lt_limit_iff {p : Params} {x : Nat} (hx : x < limit p) (k : Nat) :
    x * 2 ^ k < limit p ↔ bitlen p x + k ≤ p.b ∨ x = 0 := by
  obtain ⟨-, hhigh, hlow⟩ := bitlen_bounds hx
  constructor
  · intro hlt
    refine or_iff_not_imp_right.mpr fun h0 => ?_
    have hpos := bitlen_pos hx h0
    have hpow : 2 ^ (bitlen p x - 1 + k) < 2 ^ p.b := by
      rw [pow_add]
      exact (Nat.mul_le_mul_right _ (hlow hpos)).trans_lt hlt
    have hexp := (Nat.pow_lt_pow_iff_right Nat.one_lt_two).mp hpow
    omega
  · rintro (hle | rfl)
    · calc x * 2 ^ k < 2 ^ bitlen p x * 2 ^ k := Nat.mul_lt_mul_of_pos_right hhigh (Nat.two_pow_pos k)
        _ = 2 ^ (bitlen p x + k) := (pow_add ..).symm
        _ ≤ 2 ^ p.b := Nat.pow_le_pow_right Nat.two_pos hle
    · rw [Nat.zero_mul]
      exact limit_pos p

/-- Left then right gives the value back exactly when the left shift loses no bit: a result `x` bounds `x * 2^k` by what
the left shift kept (45_shift.md R102). -/
theorem shrUnit_shlUnit_eq_self_iff {p : Params} (hw : 0 < p.w) (x k : Nat) :
    shrUnit p (shlUnit p x k) k = x ↔ x * 2 ^ k < limit p := by
  rw [shrUnit_eq hw (shlUnit_lt hw x k), shlUnit_eq hw]
  constructor
  · intro hback
    calc x * 2 ^ k = x * 2 ^ k % limit p / 2 ^ k * 2 ^ k := by rw [hback]
      _ ≤ x * 2 ^ k % limit p := Nat.div_mul_le_self ..
      _ < limit p := Nat.mod_lt _ (limit_pos p)
  · intro hlt
    rw [Nat.mod_eq_of_lt hlt, Nat.mul_div_cancel _ (Nat.two_pow_pos k)]

/-- Right then left clears the low `k` bits (45_shift.md R102). -/
theorem shlUnit_shrUnit {p : Params} {x : Nat} (hw : 0 < p.w) (hx : x < limit p) (k : Nat) :
    shlUnit p (shrUnit p x k) k = x - x % 2 ^ k := by
  rw [shrUnit_eq hw hx, shlUnit_eq hw, Nat.mod_eq_of_lt ((Nat.div_mul_le_self ..).trans_lt hx),
    Nat.div_mul_self_eq_mod_sub_self]

/-- The left shift is the multiplier's product with a power of two (45_shift.md R102). -/
theorem shlUnit_eq_mulLow {p : Params} (hw : 0 < p.w) (x k : Nat) : shlUnit p x k = mulLow p x (2 ^ k) := by
  rw [shlUnit_eq hw, mulLow_eq]

/-! ### The commands -/

/-- Settles O43: `SHL` is one register write of the left shift unit's result. -/
theorem shlMultipliesByPower : Obligations.ShlMultipliesByPower := by
  intro s rx ra imm hinv
  have hshift : shlUnit s.par (s.reg ra) imm.toNat = s.reg ra * 2 ^ imm.toNat % 2 ^ s.par.b :=
    shlUnit_eq hinv.one_le_w ..
  rw [← hshift]
  refine ⟨_, rfl, writesReg_setReg .., fun hb => ?_⟩
  rw [State.reg_setReg_self, hshift, mul_two_pow_mod_eq_zero hb]

/-- Settles O44: `SHR` is one register write of the right shift unit's result. -/
theorem shrDividesByPower : Obligations.ShrDividesByPower := by
  intro s rx ra imm hinv
  have hshift : shrUnit s.par (s.reg ra) imm.toNat = s.reg ra / 2 ^ imm.toNat :=
    shrUnit_eq hinv.one_le_w (hinv.reg_lt ra) _
  rw [← hshift]
  refine ⟨_, rfl, writesReg_setReg .., fun hb => ?_⟩
  rw [State.reg_setReg_self, hshift, div_two_pow_eq_zero (hinv.reg_lt ra) hb]

/-- Settles O45: what each order of the two shifts keeps, and the units' arithmetic. -/
theorem shiftLaws : Obligations.ShiftLaws := by
  intro p x k hok hx
  obtain ⟨hw, -, -⟩ := hok
  exact ⟨(shrUnit_shlUnit_eq_self_iff hw x k).trans (mul_two_pow_lt_limit_iff hx k), shlUnit_shrUnit hw hx k,
    fun _ => shlUnit_eq_mulLow hw x k, shrUnit_eq hw hx k⟩

end Sys2Proof.Machine
end

section
/-!
Modulo (46_modular.md R105 to R112, O46 to O51). A command that divides by a modulus register is one register write
behind the zero-divisor test. `MODSUB`'s two cases are the difference over the integers. `MODPOW`'s loop takes the turns
of `SquareMultiply`, and what that relation computes over residues is the power.
-/

namespace Sys2Proof.Machine

/-! ### Modular subtraction -/

/-- `MODSUB`'s two cases, the second one over the integers: wrapping before `x` is added changes nothing (R108). -/
theorem modSub_eq {p : Params} {y : Nat} (hy : y < limit p) (m x : Nat) :
    modSub p m x y = if y ≤ x then x - y else (((m : Int) - y + x) % 2 ^ p.b).toNat := by
  have hwrap : (wrap p (wrap p (m + limit p - y) + x) : Int) = ((m : Int) - y + x) % 2 ^ p.b := by
    calc (wrap p (wrap p (m + limit p - y) + x) : Int)
        = ((m + limit p - y + x : Nat) : Int) % limit p := by
          rw [wrap, wrap, Nat.mod_add_mod, Int.natCast_mod]
      _ = ((m : Int) - y + x + limit p) % limit p := by
          congr 1
          omega
      _ = ((m : Int) - y + x) % 2 ^ p.b := by
          rw [Int.add_emod_right, limit, Nat.cast_pow, Nat.cast_ofNat]
  rw [modSub, ← hwrap, Int.toNat_natCast]

/-- Of reduced operands `MODSUB` leaves the residue of the difference: the second case does not wrap (R112). -/
theorem modSub_of_reduced {p : Params} {m x y : Nat} (hm : m < limit p) (hx : x < m) (hy : y < m) :
    (modSub p m x y : Int) = ((x : Int) - y) % m := by
  have hm' : (m : Int) < 2 ^ p.b := mod_cast hm
  rw [modSub_eq (hy.trans hm)]
  split
  · rw [Int.emod_eq_of_lt (by omega) (by omega)]
    omega
  · rw [Int.emod_eq_of_lt (b := 2 ^ p.b) (by omega) (by omega), Int.toNat_of_nonneg (by omega),
      ← Int.add_emod_right, Int.emod_eq_of_lt (by omega) (by omega)]
    omega

/-! ### Square-and-multiply -/

theorem SquareMultiply.eq_of_zero {mul : Nat → Nat → Nat} {res x out : Nat} (h : SquareMultiply mul 0 res x out) :
    out = res := by
  cases h with
  | done => rfl
  | bit _ _ _ _ hk => exact absurd rfl hk

/-- The loop over the exponent's bits from bit `i` up takes the turns of `SquareMultiply`; a turn after the last set bit
changes nothing (R110, 47_montgomery.md R119). -/
theorem squareMultiply_powLoop {mul : Nat → Nat → Nat} {k len i : Nat} (hlen : k / 2 ^ i < 2 ^ len) (res x : Nat) :
    SquareMultiply mul (k / 2 ^ i) res x (powLoop mul k len i res x) := by
  induction len generalizing i res x with
  | zero =>
    rw [Nat.lt_one_iff.mp hlen]
    exact .done res x
  | succ len ih =>
    have hhalf : k / 2 ^ (i + 1) = k / 2 ^ i / 2 := by rw [pow_succ, Nat.div_div_eq_div_mul]
    have hrest := ih (i := i + 1) (by rw [hhalf]; omega) (if k.testBit i then mul res x else res) (mul x x)
    rw [← powLoop, hhalf] at hrest
    simp only [Nat.testBit_eq_decide_div_mod_eq, decide_eq_true_eq] at hrest
    by_cases hk : k / 2 ^ i = 0
    · rw [hk] at hrest ⊢
      rw [hrest.eq_of_zero]
      exact .done res x
    · exact .bit _ _ _ _ hk hrest

/-- Square-and-multiply over residues computes the power; the start value alone is not reduced (R110). -/
theorem SquareMultiply.mulMod_eq {m k res x out : Nat} (h : SquareMultiply (mulMod m) k res x out) :
    out = if k = 0 then res else res * x ^ k % m := by
  induction h with
  | done res x => rfl
  | bit k res x out hk _ ih =>
    have hsquare (r : Nat) : r * mulMod m x x ^ (k / 2) % m = r * (x * x) ^ (k / 2) % m := by
      rw [mulMod, Nat.mul_mod, ← Nat.pow_mod, ← Nat.mul_mod]
    rw [if_neg hk, ih, hsquare]
    rcases Nat.even_or_odd' k with ⟨j, rfl | rfl⟩
    · have hj : j ≠ 0 := by omega
      simp [hj, pow_mul, pow_two]
    · rw [show (2 * j + 1) / 2 = j by omega, show (2 * j + 1) % 2 = 1 by omega, if_pos rfl, mulMod,
        Nat.mod_mul_mod, Nat.mul_assoc, ← pow_two x, ← pow_mul, ← pow_succ']
      split
      · next hj => rw [hj, Nat.mul_zero, Nat.zero_add, pow_one]
      · rfl

/-- `MODPOW`'s result: the bit length reaches every set bit of the exponent (R110). -/
theorem modPow_eq {p : Params} {k : Nat} (hk : k < limit p) (m x : Nat) :
    modPow p m x k = if k = 0 then 1 else x ^ k % m := by
  obtain ⟨-, hlen, -⟩ := bitlen_bounds hk
  have hpow := (squareMultiply_powLoop (mul := mulMod m) (i := 0) (by simpa using hlen) 1 x).mulMod_eq
  simpa [modPow] using hpow

/-! ### The commands -/

/-- A register write behind the zero-divisor test of the modulus register `d` (R111, 47_montgomery.md R120). -/
theorem unlessZero_setReg (d : Nat) (i : Instr) (s : State) (rd : Reg) (v : Nat) :
    ∃ t, unlessZero d i s (s.setReg rd v) = .next t ∧
      (d = 0 → RecordsFault s t .div0 i) ∧ (d ≠ 0 → WritesReg s t rd v) := by
  by_cases hd : d = 0
  · subst hd
    exact ⟨_, rfl, fun _ => rfl, fun h => absurd rfl h⟩
  · exact ⟨_, unlessZero_of_ne hd i s _, fun h => absurd h hd, fun _ => writesReg_setReg s rd v⟩

/-- Settles O46: the two commands are assignments to the contexts, with no check before them. -/
theorem setupCommandsLoadContexts : Obligations.SetupCommandsLoadContexts := fun _ _ _ _ => ⟨rfl, rfl⟩

/-- Settles O47: three register writes behind the zero-divisor test. -/
theorem moduloCommandsReduceExactly : Obligations.ModuloCommandsReduceExactly := by
  intro s rd ra rb
  obtain ⟨t, hnorm, hnorm0, hnormw⟩ := unlessZero_setReg s.mod (.modnorm ra) s ra (s.reg ra % s.mod)
  obtain ⟨u, hadd, hadd0, haddw⟩ := unlessZero_setReg s.mod (.modadd rd ra rb) s rd ((s.reg ra + s.reg rb) % s.mod)
  obtain ⟨v, hmul, hmul0, hmulw⟩ := unlessZero_setReg s.mod (.modmul rd ra rb) s rd (s.reg ra * s.reg rb % s.mod)
  exact ⟨fun hm => ⟨⟨t, hnorm, hnormw hm⟩, ⟨u, hadd, haddw hm⟩, v, hmul, hmulw hm⟩,
    fun hz => ⟨⟨t, hnorm, hnorm0 hz⟩, ⟨u, hadd, hadd0 hz⟩, v, hmul, hmul0 hz⟩⟩

/-- Settles O48: `MODSUB` is a register write behind the zero-divisor test. -/
theorem modsubFollowsTwoCases : Obligations.ModsubFollowsTwoCases := by
  intro s rd ra rb hinv
  rw [← modSub_eq (hinv.reg_lt rb)]
  exact unlessZero_setReg ..

/-- Settles O49: each result is a remainder by the modulus. -/
theorem reducedOperandsGiveResidues : Obligations.ReducedOperandsGiveResidues := by
  intro s rd ra rb hinv hx hy
  have hpos : 0 < s.mod := Nat.zero_lt_of_lt hx
  have hsub := modSub_of_reduced hinv.mod_lt hx hy
  have hsublt : modSub s.par s.mod (s.reg ra) (s.reg rb) < s.mod := by
    have := Int.emod_lt_of_pos ((s.reg ra : Int) - s.reg rb) (Int.natCast_pos.mpr hpos)
    omega
  refine ⟨_, _, _, unlessZero_of_ne hpos.ne' .., unlessZero_of_ne hpos.ne' .., unlessZero_of_ne hpos.ne' .., ?_⟩
  rw [State.reg_setReg_self, State.reg_setReg_self, State.reg_setReg_self]
  exact ⟨rfl, hsub, rfl, Nat.mod_lt _ hpos, hsublt, Nat.mod_lt _ hpos⟩

/-- Settles O50: `MODPOW` is a register write of the power behind the zero-divisor test. -/
theorem modpowIsModularPower : Obligations.ModpowIsModularPower := by
  intro s rd ra rb hinv
  rw [← modPow_eq (hinv.reg_lt rb)]
  exact unlessZero_setReg ..

/-- Settles O51: `MULX` leaves the product's halves, which `DIVX` puts together again as its dividend; each command's
frame keeps the fault record. -/
theorem modmulIsMulxThenDivx : Obligations.ModmulIsMulxThenDivx := by
  intro s rd ra rb lo hi q m hinv hsafe hm hm0 hlohi hqlo hmlo hmhi
  obtain ⟨t, hmulx, -, hproduct⟩ := mulxKeepsWholeProduct s lo ra rb hi hinv
  obtain ⟨⟨-, -, hkeep, hframe⟩, hwhole⟩ := hproduct hlohi
  have hmt : t.reg m = s.mod := (hkeep m hmlo hmhi).trans hm
  obtain ⟨u, hdivx, -, -, hdivide⟩ := divxDividesDoubleWidth t q lo m hi (nextMeetsInv_exec hinv _ t hmulx)
  obtain ⟨⟨hrem, -, -, hframe'⟩, -⟩ := hdivide hqlo (hmt ▸ hm0) _ rfl
  have hpar : t.par = s.par := by rw [hframe]
  have hsafet : Safe t := by rw [hframe]; exact hsafe
  have hsafeu : Safe u := by rw [hframe']; exact hsafet
  refine ⟨t, u, _, hmulx, hdivx, unlessZero_of_ne hm0 .., ?_, hsafet, hsafeu, hsafe⟩
  rw [hrem, hpar, hwhole, hmt]
  exact State.reg_setReg_self ..

end Sys2Proof.Machine
end

section
/-!
Montgomery (47_montgomery.md R116 to R122, O52 to O57). In a good context no value of R118's lines truncates, so `MMUL`
divides `t + u * n` by `2^k` exactly: the `+1` is the carry of the two low parts, and it is one too many in the corner,
where both are 0. Away from the corner `MMUL` multiplies images, so `MPOW` takes the turns of `MODPOW` on images.
-/

namespace Sys2Proof.Machine

/-! ### In any context -/

/-- The trial subtraction of R118 leaves the remainder (log 13). -/
theorem trialSubtract_eq_mod {n fuel res : Nat} (hn : 0 < n) (hfuel : res ≤ fuel) :
    trialSubtract n fuel res = res % n := by
  induction fuel generalizing res with
  | zero =>
    obtain rfl := Nat.le_zero.mp hfuel
    exact (Nat.zero_mod n).symm
  | succ fuel ih =>
    rw [trialSubtract]
    split
    · next hle => rw [ih (by omega), ← Nat.mod_eq_sub_mod hle]
    · next hlt => exact (Nat.mod_eq_of_lt (Nat.not_le.mp hlt)).symm

theorem mmul_lt_modulus {n : Nat} (hn : 0 < n) (p : Params) (ninv k a b : Nat) : mmul p n ninv k a b < n := by
  rw [mmul]
  split
  · exact hn
  · exact Nat.mod_lt _ hn

/-- `mmul` leaves what the lines of R118 compute. -/
theorem montgomeryStep_mmul {n : Nat} (hn : 0 < n) (p : Params) (ninv k a b : Nat) :
    MontgomeryStep p n ninv k a b (mmul p n ninv k a b) := by
  by_cases ht : montT p a b = 0
  · rw [mmul, if_pos ht]
    exact (if_pos ht).mpr rfl
  · rw [mmul, if_neg ht]
    exact (if_neg ht).mpr fun fuel hfuel => (trialSubtract_eq_mod hn hfuel).symm

/-- Square-and-multiply over all bits of a register's value, as `MODPOW` and `MPOW` run it (R119). -/
theorem squareMultiply_bitlen {p : Params} {e : Nat} (he : e < limit p) (mul : Nat → Nat → Nat) (res x : Nat) :
    SquareMultiply mul e res x (powLoop mul e (bitlen p e) 0 res x) := by
  obtain ⟨-, hlen, -⟩ := bitlen_bounds he
  simpa using squareMultiply_powLoop (mul := mul) (i := 0) (by simpa using hlen) res x

/-- Above modulus 1 the unreduced 1 of exponent 0 is a residue too (46_modular.md R110). -/
theorem modPow_eq_pow_mod {p : Params} {m e : Nat} (he : e < limit p) (hm : 1 < m) (x : Nat) :
    modPow p m x e = x ^ e % m := by
  rw [modPow_eq he]
  split
  · next h0 => rw [h0, pow_zero, Nat.mod_eq_of_lt hm]
  · rfl

/-- Settles O52: `MTOREPR` is one register write behind the zero-divisor test, of 0 when the shift leaves no bit. -/
theorem mtoreprShiftsAndReduces : Obligations.MtoreprShiftsAndReduces := by
  intro s rd ra
  obtain ⟨t, hexec, hzero, hwrite⟩ := unlessZero_setReg s.mn (.mtorepr rd ra) s rd
    (toRepr s.par s.mn s.mkWidth.toNat (s.reg ra))
  refine ⟨t, hexec, hzero, fun hn => ⟨hwrite hn, fun hk => ?_⟩⟩
  obtain ⟨hreg, -⟩ := hwrite hn
  rw [hreg, toRepr, wrap, limit, mul_two_pow_mod_eq_zero hk, Nat.zero_mod]

/-- A command that writes `mmul` of two values behind the test of `MN` (R117, R118). -/
theorem unlessZero_mmul (i : Instr) (s : State) (rd : Reg) (a b : Nat) :
    ∃ t, unlessZero s.mn i s (s.setReg rd (s.mmul a b)) = .next t ∧
      (s.mn = 0 → RecordsFault s t .div0 i) ∧
      (s.mn ≠ 0 → WritesReg s t rd (t.reg rd) ∧ t.reg rd < s.mn ∧
        MontgomeryStep s.par s.mn s.mninv s.mkWidth.toNat a b (t.reg rd)) := by
  obtain ⟨t, hexec, hzero, hwrite⟩ := unlessZero_setReg s.mn i s rd (s.mmul a b)
  refine ⟨t, hexec, hzero, fun hn => ?_⟩
  have hpos := Nat.pos_of_ne_zero hn
  obtain ⟨hreg, hframe⟩ := hwrite hn
  refine ⟨⟨rfl, hframe⟩, ?_⟩
  rw [hreg]
  exact ⟨mmul_lt_modulus hpos .., montgomeryStep_mmul hpos ..⟩

/-- Settles O53: both commands write `mmul`, which `montgomeryStep_mmul` ties to the lines of R118. -/
theorem mmulFollowsRedcLines : Obligations.MmulFollowsRedcLines := fun s rd ra rb =>
  ⟨unlessZero_mmul (.mmul rd ra rb) s rd (s.reg ra) (s.reg rb), unlessZero_mmul (.mfromrepr rd ra) s rd (s.reg ra) 1⟩

/-- Settles O54: the bit length reaches every set bit of the exponent, and exponent 0 leaves the start value. -/
theorem mpowSquaresAndMultiplies : Obligations.MpowSquaresAndMultiplies := by
  intro s rd ra rb hinv
  obtain ⟨t, hexec, hzero, hwrite⟩ := unlessZero_setReg s.mn (.mpow rd ra rb) s rd
    (mpow s.par s.mn s.mninv s.mkWidth.toNat (s.reg ra) (s.reg rb))
  refine ⟨t, hexec, hzero, fun hn => ?_⟩
  obtain ⟨hreg, hframe⟩ := hwrite hn
  have hpower := squareMultiply_bitlen (hinv.reg_lt rb) (mmul s.par s.mn s.mninv s.mkWidth.toNat)
    (1 * 2 ^ s.mkWidth.toNat % 2 ^ s.par.b % s.mn) (s.reg ra)
  refine ⟨⟨rfl, hframe⟩, hreg ▸ hpower, fun he => ?_⟩
  rw [he] at hpower
  rw [hreg, mpow, he]
  exact hpower.eq_of_zero.trans (by rw [Nat.one_mul])

/-! ### The reduction step in a good context -/

/-- The image of `a` for the modulus `n` and the width `k` (R116). -/
def image (n k a : Nat) : Nat := a * 2 ^ k % n

theorem image_one (n k : Nat) : image n k 1 = 2 ^ k % n := by rw [image, Nat.one_mul]

theorem image_mod (n k a : Nat) : image n k (a % n) = image n k a := Nat.mod_mul_mod ..

/-- The conditions of 47_montgomery.md R121 on the numbers of a context. That `n'` is below `2^k` is not needed: only
its low `k` bits reach `u`. -/
structure ReducesExactly (p : Params) (n ninv k : Nat) : Prop where
  odd : n % 2 = 1
  lt_pow : n < 2 ^ k
  neg_inverse : (n * ninv + 1) % 2 ^ k = 0
  width_le : 2 * k ≤ p.b

theorem GoodContext.reducesExactly {s : State} (h : GoodContext s) :
    ReducesExactly s.par s.mn s.mninv s.mkWidth.toNat := by
  obtain ⟨hodd, hlt, hinv, -, hk⟩ := h
  exact ⟨hodd, hlt, hinv, hk⟩

namespace ReducesExactly
variable {p : Params} {n ninv k : Nat} (h : ReducesExactly p n ninv k)
include h

theorem pos : 0 < n := Nat.pos_of_ne_zero fun h0 => absurd h.odd (by simp [h0])

theorem ne_zero : n ≠ 0 := h.pos.ne'

theorem width_pos : 0 < k := by
  refine Nat.pos_of_ne_zero fun h0 => ?_
  have hlt := h.lt_pow
  rw [h0, pow_zero] at hlt
  exact absurd h.pos (by omega)

theorem coprime_pow : Nat.Coprime n (2 ^ k) :=
  (Nat.coprime_two_right.mpr (Nat.odd_iff.mpr h.odd)).pow_right k

/-- Whatever is at most `2^k * 2^k` fits `B` bits. -/
theorem sq_pow_le_limit : 2 ^ k * 2 ^ k ≤ limit p := by
  rw [← pow_add, ← two_mul]
  exact Nat.pow_le_pow_right two_pos h.width_le

theorem lt_limit {t : Nat} (ht : t < n * 2 ^ k) : t < limit p :=
  calc t < n * 2 ^ k := ht
    _ ≤ 2 ^ k * 2 ^ k := Nat.mul_le_mul_right _ h.lt_pow.le
    _ ≤ limit p := h.sq_pow_le_limit

/-- The shift of `MTOREPR` loses no bit of a residue (R116). -/
theorem toRepr_eq {a : Nat} (ha : a < n) : toRepr p n k a = image n k a := by
  rw [toRepr, wrap, Nat.mod_eq_of_lt (h.lt_limit (Nat.mul_lt_mul_of_pos_right ha (Nat.two_pow_pos k)))]
  rfl

/-- The shift of the plain 1 loses no bit, though 1 is no residue of the modulus 1 (R119). -/
theorem toRepr_one : toRepr p n k 1 = image n k 1 := by
  have hfits : 1 * 2 ^ k < limit p :=
    calc 1 * 2 ^ k < 2 ^ k * 2 ^ k :=
          Nat.mul_lt_mul_of_pos_right (Nat.one_lt_two_pow h.width_pos.ne') (Nat.two_pow_pos k)
      _ ≤ limit p := h.sq_pow_le_limit
  rw [toRepr, wrap, Nat.mod_eq_of_lt hfits]
  rfl

/-- The first line of R118 does not truncate. -/
theorem montT_eq {a b : Nat} (ht : a * b < n * 2 ^ k) : montT p a b = a * b := Nat.mod_eq_of_lt (h.lt_limit ht)

/-- The truncation to `B` bits in `u` is lost in the one to `k` bits. -/
theorem montU_eq (t : Nat) : montU p ninv k t = t * ninv % 2 ^ k := by
  have hk := h.width_le
  rw [montU, wrap, limit, Nat.mod_mod_of_dvd _ (pow_dvd_pow 2 (by omega)), Nat.mod_mul_mod]

/-- `t + u * n` is a multiple of `2^k`: `u * n` is `-t` modulo `2^k` (R118). -/
theorem dvd_add_montU_mul (t : Nat) : 2 ^ k ∣ t + montU p ninv k t * n := by
  have hzero : t * (n * ninv + 1) ≡ 0 [MOD 2 ^ k] :=
    (Nat.modEq_zero_iff_dvd.mpr (Nat.dvd_of_mod_eq_zero h.neg_inverse)).mul_left t
  have hu : montU p ninv k t * n ≡ t * ninv * n [MOD 2 ^ k] := by
    rw [h.montU_eq]
    exact (Nat.mod_modEq _ _).mul_right n
  refine Nat.modEq_zero_iff_dvd.mp ((hu.add_left t).trans ?_)
  rwa [show t + t * ninv * n = t * (n * ninv + 1) by ring]

/-- No line of R118 truncates: `res` is the sum over the integers (R121). -/
theorem montRes_eq {t : Nat} (ht : t < n * 2 ^ k) :
    montRes p n ninv k t = montU p ninv k t * n / 2 ^ k + t / 2 ^ k + 1 := by
  have hpos : 0 < 2 ^ k := Nat.two_pow_pos k
  have hun : montU p ninv k t * n < n * 2 ^ k := by
    rw [Nat.mul_comm n]
    exact Nat.mul_lt_mul_of_pos_right (Nat.mod_lt _ hpos) h.pos
  have htdiv : t / 2 ^ k < n := (Nat.div_lt_iff_lt_mul hpos).mpr ht
  have hundiv : montU p ninv k t * n / 2 ^ k < n := (Nat.div_lt_iff_lt_mul hpos).mpr hun
  have hsum : 2 * 2 ^ k ≤ limit p :=
    (Nat.mul_le_mul_right _ (Nat.le_self_pow h.width_pos.ne' 2)).trans h.sq_pow_le_limit
  have hlt := h.lt_pow
  rw [montRes, wrap, wrap, Nat.mod_eq_of_lt (h.lt_limit hun), Nat.mod_eq_of_lt (by omega)]

/-- The `+1` is the carry of the two low parts, which add up to `2^k` when they are not 0 (R118). -/
theorem montRes_mul_pow {t : Nat} (ht : t < n * 2 ^ k) (hlow : t % 2 ^ k ≠ 0) :
    montRes p n ninv k t * 2 ^ k = t + montU p ninv k t * n := by
  have hdvd := h.dvd_add_montU_mul t
  rw [Nat.add_comm] at hdvd
  have hcarry : 2 ^ k ≤ montU p ninv k t * n % 2 ^ k + t % 2 ^ k := by
    by_contra hlt
    have hzero := Nat.add_mod_of_add_mod_lt (Nat.not_le.mp hlt)
    rw [Nat.mod_eq_zero_of_dvd hdvd] at hzero
    omega
  rw [h.montRes_eq ht, ← Nat.add_div_eq_of_le_mod_add_mod hcarry (Nat.two_pow_pos k), Nat.div_mul_cancel hdvd,
    Nat.add_comm]

/-- In the corner `u` is 0, and the `+1` stays (R122). -/
theorem mmul_of_corner {a b : Nat} (ht : a * b < n * 2 ^ k) (hcorner : Corner p k a b) :
    mmul p n ninv k a b = (a * b / 2 ^ k + 1) % n := by
  obtain ⟨h0, hlow⟩ := hcorner
  have hu : montU p ninv k (a * b) = 0 := by
    rw [h.montT_eq ht] at hlow
    rw [montU, hlow, Nat.zero_mul, wrap, Nat.zero_mod, Nat.zero_mod]
  rw [mmul, if_neg h0, h.montT_eq ht, h.montRes_eq ht, hu, Nat.zero_mul, Nat.zero_div, Nat.zero_add]

/-- Away from the corner `mmul` is the Montgomery product (R121). -/
theorem mmul_mul_pow {a b : Nat} (ht : a * b < n * 2 ^ k) (hcorner : ¬ Corner p k a b) :
    mmul p n ninv k a b * 2 ^ k ≡ a * b [MOD n] := by
  rw [Corner, h.montT_eq ht] at hcorner
  rw [mmul, h.montT_eq ht]
  split
  · next h0 => rw [h0, Nat.zero_mul]
  · next h0 =>
    have hexact := h.montRes_mul_pow ht fun hlow => hcorner ⟨h0, hlow⟩
    calc montRes p n ninv k (a * b) % n * 2 ^ k
        ≡ montRes p n ninv k (a * b) * 2 ^ k [MOD n] := (Nat.mod_modEq _ n).mul_right _
      _ ≡ a * b [MOD n] := by rw [hexact, Nat.add_mul_modulus_modEq_iff]

/-- Two residues whose multiples by `2^k` agree modulo `n` are equal: `n` is odd. -/
theorem eq_of_mul_pow_modEq {u v : Nat} (hu : u < n) (hv : v < n) (huv : u * 2 ^ k ≡ v * 2 ^ k [MOD n]) : u = v :=
  (huv.cancel_right_of_coprime h.coprime_pow).eq_of_lt_of_lt hu hv

theorem image_lt (a : Nat) : image n k a < n := Nat.mod_lt _ h.pos

/-- `MFROMREPR` of an image: the corner cannot occur (R117, R121). -/
theorem mmul_image_one (a : Nat) : mmul p n ninv k (image n k a) 1 = a % n := by
  have hlt := h.image_lt a
  have ht : image n k a * 1 < n * 2 ^ k := by
    rw [Nat.mul_one]
    exact hlt.trans_le (Nat.le_mul_of_pos_right n (Nat.two_pow_pos k))
  have hcorner : ¬ Corner p k (image n k a) 1 := by
    rw [Corner, h.montT_eq ht, Nat.mul_one, Nat.mod_eq_of_lt (hlt.trans h.lt_pow)]
    exact fun hc => hc.left hc.right
  refine h.eq_of_mul_pow_modEq (mmul_lt_modulus h.pos ..) (Nat.mod_lt a h.pos) ?_
  calc mmul p n ninv k (image n k a) 1 * 2 ^ k ≡ image n k a * 1 [MOD n] := h.mmul_mul_pow ht hcorner
    _ ≡ a * 2 ^ k [MOD n] := by rw [Nat.mul_one]; exact Nat.mod_modEq _ n
    _ ≡ a % n * 2 ^ k [MOD n] := ((Nat.mod_modEq a n).mul_right _).symm

theorem mul_lt {a b : Nat} (ha : a < n) (hb : b < n) : a * b < n * 2 ^ k :=
  Nat.mul_lt_mul'' ha (hb.trans h.lt_pow)

/-- Away from the corner `mmul` of two images is the image of the product (R118). -/
theorem mmul_image_image {a b : Nat} (hcorner : ¬ Corner p k (image n k a) (image n k b)) :
    mmul p n ninv k (image n k a) (image n k b) = image n k (mulMod n a b) := by
  refine h.eq_of_mul_pow_modEq (mmul_lt_modulus h.pos ..) (h.image_lt _) ?_
  calc mmul p n ninv k (image n k a) (image n k b) * 2 ^ k
      ≡ image n k a * image n k b [MOD n] := h.mmul_mul_pow (h.mul_lt (h.image_lt a) (h.image_lt b)) hcorner
    _ ≡ a * 2 ^ k * (b * 2 ^ k) [MOD n] := (Nat.mod_modEq _ n).mul (Nat.mod_modEq _ n)
    _ = a * b * 2 ^ k * 2 ^ k := by ring
    _ ≡ image n k (a * b) * 2 ^ k [MOD n] := ((Nat.mod_modEq _ n).mul_right _).symm
    _ = image n k (mulMod n a b) * 2 ^ k := by rw [mulMod, image_mod]

/-- While no multiplication meets the corner, square-and-multiply over images is square-and-multiply over residues,
turn by turn (R122, 93_implementation_defined.md U6). -/
theorem squareMultiply_image {e r y out out' : Nat} (hfree : CornerFree p n ninv k e (image n k r) (image n k y))
    (hmont : SquareMultiply (mmul p n ninv k) e (image n k r) (image n k y) out)
    (hmod : SquareMultiply (mulMod n) e r y out') : out = image n k out' := by
  induction hmod with
  | done r y => exact hmont.eq_of_zero
  | bit e r y out' he _ ih =>
    cases hmont with
    | done => exact absurd rfl he
    | bit _ _ _ _ _ hmont =>
      cases hfree with
      | done => exact absurd rfl he
      | bit _ _ _ _ hmul hsq hfree =>
        have hres : (if e % 2 = 1 then mmul p n ninv k (image n k r) (image n k y) else image n k r)
            = image n k (if e % 2 = 1 then mulMod n r y else r) := by
          split
          · next hodd => exact h.mmul_image_image (hmul hodd)
          · rfl
        rw [hres, h.mmul_image_image hsq] at hmont hfree
        exact ih hfree hmont

/-- `MPOW` of the image of `a` leaves the image of `MODPOW`'s result when no multiplication meets the corner. -/
theorem mpow_image {a e : Nat} (he : e < limit p)
    (hfree : CornerFree p n ninv k e (image n k 1) (image n k a)) :
    mpow p n ninv k (image n k a) e = image n k (modPow p n a e) := by
  refine h.squareMultiply_image hfree ?_ (squareMultiply_bitlen he (mulMod n) 1 a)
  rw [mpow, h.toRepr_one]
  exact squareMultiply_bitlen he ..

/-- Raising the image of `a` and converting back gives the power's residue. -/
theorem mmul_mpow_image_one {a e : Nat} (he : e < limit p) (hone : 1 < n)
    (hfree : CornerFree p n ninv k e (image n k 1) (image n k a)) :
    mmul p n ninv k (mpow p n ninv k (image n k a) e) 1 = a ^ e % n := by
  rw [h.mpow_image he hfree, h.mmul_image_one, modPow_eq_pow_mod he hone, Nat.mod_mod]

end ReducesExactly

/-! ### The commands in a good context -/

/-- Settles O55: `MFROMREPR` of an image gives the residue. -/
theorem montgomeryRoundTrip : Obligations.MontgomeryRoundTrip := by
  intro s rd re ra _ hsafe hgood ha
  have h := hgood.reducesExactly
  refine ⟨_, _, unlessZero_of_ne h.ne_zero .., unlessZero_of_ne h.ne_zero .., ?_, ?_, hsafe, hsafe⟩
  · rw [State.reg_setReg_self]
    exact h.toRepr_eq ha
  · rw [State.reg_setReg_self, State.reg_setReg_self, h.toRepr_eq ha]
    exact (h.mmul_image_one _).trans (Nat.mod_eq_of_lt ha)

/-- Settles O56: one register write of `mmul`, away from the corner and in it. -/
theorem mmulIsMontgomeryProduct : Obligations.MmulIsMontgomeryProduct := by
  intro s rd ra rb _ hgood ha hb
  have h := hgood.reducesExactly
  refine ⟨_, unlessZero_of_ne h.ne_zero .., ?_⟩
  rw [State.reg_setReg_self]
  exact ⟨mmul_lt_modulus h.pos .., h.mmul_mul_pow (h.mul_lt ha hb), h.mmul_of_corner (h.mul_lt ha hb)⟩

/-- Settles O57: `MPOW` leaves the image of what `MODPOW` leaves, a residue since the modulus is above 1. -/
theorem mpowAgreesWithModpow : Obligations.MpowAgreesWithModpow := by
  intro s rx ra rb rc rd hinv hsafe hgood hmod hone ha hne hfree
  have h := hgood.reducesExactly
  rw [← image_one] at hfree
  have hback := h.mmul_mpow_image_one (hinv.reg_lt rb) hone hfree
  refine ⟨_, _, _, _, unlessZero_of_ne h.ne_zero .., unlessZero_of_ne h.ne_zero .., unlessZero_of_ne h.ne_zero ..,
    unlessZero_of_ne (hmod ▸ h.ne_zero) .., ?_⟩
  rw [State.reg_setReg_self, State.reg_setReg_self, State.reg_setReg_self, State.reg_setReg_self,
    State.reg_setReg_of_ne _ _ hne, h.toRepr_eq ha, hmod, modPow_eq_pow_mod (hinv.reg_lt rb) hone]
  exact ⟨hback, hback, hsafe, hsafe, hsafe, hsafe⟩

end Sys2Proof.Machine
end

section
/-!
Faults, reset and the end of every step (60_exceptions.md R152 to R156, 70_reset_and_hazards.md R170, R177; O9, O12, O16,
O18, O19, O60). A faulted block keeps everything but `DIN0`, `DIN1` and the host's side, step by step and so along a run.
The run a claim is made about is the block's own run, settled at its end, because the record stays as it was.
-/

namespace Sys2Proof.Machine

/-! ### What raises a fault -/

/-- A command that passes its checks leaves the fault record as it was. -/
theorem State.assignAll_err (s : State) (as : List Assign) : (s.assignAll as).err = s.err := by
  obtain ⟨-, -, herr, -⟩ := s.assignAll_keeps as
  exact herr

/-- Settles O16: the record is written by a word that is no command, by a failed static check or by a zero divisor; the
command's word is the word written by O2. -/
theorem faultRecordsAndChangesNothingElse : Obligations.FaultRecordsAndChangesNothingElse := by
  intro cmd s t herr hwrite hfault
  rcases writeCmd_cases hwrite with ⟨hfaulted, -⟩ | ⟨-, -, rfl⟩ | ⟨-, i, hdecode, hexec⟩
  · exact absurd herr hfaulted
  · exact ⟨.inl rfl, rfl⟩
  · rw [← encodeOfDecode _ _ hdecode]
    rcases exec_cases hexec with ⟨-, rfl⟩ | ⟨-, -, rfl⟩ | ⟨-, -, rfl⟩
    · exact ⟨.inl rfl, rfl⟩
    · exact ⟨.inr rfl, rfl⟩
    · exact absurd ((s.assignAll_err _).trans herr) hfault

/-- Settles O18: of the three ways a command ends, the zero divisor alone leaves DIV0. -/
theorem divZeroExactlyWhenDivisorZero : Obligations.DivZeroExactlyWhenDivisorZero := by
  intro i s t herr hexec
  rcases exec_cases hexec with ⟨hwf, rfl⟩ | ⟨hwf, hz, rfl⟩ | ⟨-, hz, rfl⟩
  · exact ⟨iff_of_false nofun fun hc => hwf hc.left, nofun⟩
  · exact ⟨iff_of_true rfl ⟨hwf, hz⟩, fun _ => rfl⟩
  · rw [s.assignAll_err, herr]
    exact ⟨iff_of_false nofun fun hc => hz hc.right, nofun⟩

/-! ### The faulted block -/

/-- Settles O9: `CMD` is refused, and the other accesses do not look at the fault record. -/
theorem faultedBlockRefusesCommands : Obligations.FaultedBlockRefusesCommands := by
  intro s e rest hfault hs
  refine ⟨?_, ?_, ?_, ?_⟩
  · rintro v rfl
    exact (step_of_script_cons hs).trans (writeCmd_of_faulted (s := s.popEvent rest) hfault _)
  · rintro v rfl
    exact step_of_script_cons hs
  · rintro v rfl
    exact step_of_script_cons hs
  · rintro p x rfl hx
    exact step_of_read hs hx

/-- `t` is `s` but for `DIN0`, `DIN1` and the host's side: all that a faulted block lets change (R154). -/
def SameBehindDataPorts (s t : State) : Prop := t = { s with host := t.host, din0 := t.din0, din1 := t.din1 }

namespace SameBehindDataPorts

theorem refl (s : State) : SameBehindDataPorts s s := rfl

theorem trans {s t u : State} (hst : SameBehindDataPorts s t) (htu : SameBehindDataPorts t u) :
    SameBehindDataPorts s u := by
  rw [SameBehindDataPorts, htu, hst]

theorem err_eq {s t : State} (h : SameBehindDataPorts s t) : t.err = s.err := by rw [h]

theorem ecmd_eq {s t : State} (h : SameBehindDataPorts s t) : t.ecmd = s.ecmd := by rw [h]

end SameBehindDataPorts

/-- While faulted an event that is no reset reaches `DIN0`, `DIN1` and the host's side alone (R154). -/
theorem takeEvent_of_faulted {e : HostEvent} {s t : State} (hfault : s.err ≠ .none) (he : ∀ c, e ≠ .reset c)
    (h : takeEvent e s = .next t) : SameBehindDataPorts s t := by
  cases e with
  | read p =>
    obtain ⟨x, -, rfl⟩ := portRead_cases h
    rfl
  | write p v =>
    rcases portWrite_cases h with ⟨-, hcmd⟩ | ⟨-, rfl⟩ | ⟨-, rfl⟩ | ⟨-, rfl⟩
    · rw [writeCmd_of_faulted hfault] at hcmd
      obtain rfl := Host.Outcome.next.inj hcmd
      rfl
    all_goals rfl
  | reset c => exact absurd rfl (he c)

theorem step_of_faulted {s t : State} (hfault : s.err ≠ .none) (hreset : NoReset s) (h : step s = .next t) :
    SameBehindDataPorts s t := by
  rcases step_cases h with ⟨-, rfl⟩ | ⟨e, rest, hcons, he⟩
  · exact .refl _
  · exact takeEvent_of_faulted (s := s.popEvent rest) hfault (hreset e (hcons ▸ List.mem_cons_self)) he

/-- A step brings no reset with it. -/
theorem NoReset.step {s t : State} (hreset : NoReset s) (h : step s = .next t) : NoReset t := by
  intro e he
  rw [step_script h] at he
  exact hreset e (List.mem_of_mem_tail he)

theorem run_of_faulted {k : Nat} {s t : State} (hfault : s.err ≠ .none) (hreset : NoReset s)
    (h : run k s = .next t) : SameBehindDataPorts s t := by
  induction k generalizing s with
  | zero =>
    obtain rfl := Host.Outcome.next.inj h
    exact .refl _
  | succ k ih =>
    obtain ⟨m, hstep, hrun⟩ := run_succ_cases h
    have hsm := step_of_faulted hfault hreset hstep
    exact hsm.trans (ih (hsm.err_eq ▸ hfault) (hreset.step hstep) hrun)

/-- Settles O19: a faulted block keeps its record along the run, and a reset is `State.resetAs`. -/
theorem onlyResetEndsAFault : Obligations.OnlyResetEndsAFault :=
  ⟨fun _ _ _ => run_of_faulted,
    fun s c _ hs => ⟨_, step_of_script_cons hs, rfl, rfl, State.reg_resetAs s.par c _, rfl, rfl, rfl⟩⟩

/-! ### The run a claim is made about -/

theorem claimRun_of_faulted {s : State} (hfault : s.err ≠ .none) (k : Nat) : claimRun k s = s.settled := by
  cases k with
  | zero => rfl
  | succ k => exact if_neg hfault

/-- A settled state is a next state only if it is not faulted, and then it is itself. -/
theorem State.settled_cases {s t : State} (h : s.settled = .next t) : Safe s ∧ s = t := by
  cases herr : s.err with
  | none =>
    rw [State.settled_of_safe herr] at h
    exact ⟨herr, Host.Outcome.next.inj h⟩
  | illegal => exact nomatch (State.settled_of_illegal herr).symm.trans h
  | div0 => exact nomatch (State.settled_of_div0 herr).symm.trans h

/-- The outcome of a settled state is read off its fault record and, without a fault, is the state. -/
theorem SameBehindDataPorts.settled_eq {s t : State} (h : SameBehindDataPorts s t) (hfault : s.err ≠ .none) :
    s.settled = t.settled := by
  cases herr : s.err with
  | none => exact absurd herr hfault
  | illegal => rw [State.settled_of_illegal herr, State.settled_of_illegal (h.err_eq.trans herr), h.ecmd_eq]
  | div0 => rw [State.settled_of_div0 herr, State.settled_of_div0 (h.err_eq.trans herr), h.ecmd_eq]

theorem claimRun_cases {k : Nat} {s t : State} (h : claimRun k s = .next t) : Safe s ∧ Safe t ∧ run k s = .next t := by
  induction k generalizing s with
  | zero =>
    obtain ⟨hsafe, rfl⟩ := State.settled_cases h
    exact ⟨hsafe, hsafe, rfl⟩
  | succ k ih =>
    obtain ⟨hsafe, m, hstep, hclaim⟩ := claimRun_succ_cases h
    obtain ⟨-, hsafet, hrun⟩ := ih hclaim
    exact ⟨hsafe, hsafet, (run_succ_of_step hstep k).trans hrun⟩

/-- With no reset pending the run a claim is made about is the block's own run, settled where that ends: a fault met on
the way is still there (R155, R156). -/
theorem claimRun_eq_settled {k : Nat} {s t : State} (hreset : NoReset s) (h : run k s = .next t) :
    claimRun k s = t.settled := by
  induction k generalizing s with
  | zero =>
    obtain rfl := Host.Outcome.next.inj h
    rfl
  | succ k ih =>
    by_cases hsafe : Safe s
    · obtain ⟨m, hstep, hrun⟩ := run_succ_cases h
      exact (claimRun_succ_of_step hsafe hstep k).trans (ih (hreset.step hstep) hrun)
    · exact (claimRun_of_faulted hsafe _).trans ((run_of_faulted hsafe hreset h).settled_eq hsafe)

/-- Settles O60: a faulted state is settled at once, and any other run is settled at its end. -/
theorem claimRunTakesFaultOutcome : Obligations.ClaimRunTakesFaultOutcome := by
  intro k s
  refine ⟨fun herr => ?_, fun herr => ?_, fun t => ⟨claimRun_cases, fun hreset hrun => ?_⟩⟩
  · rw [claimRun_of_faulted (by simp [herr]), State.settled_of_illegal herr]
  · rw [claimRun_of_faulted (by simp [herr]), State.settled_of_div0 herr]
  · rw [claimRun_eq_settled hreset hrun]
    exact ⟨State.settled_of_safe, State.settled_of_illegal, State.settled_of_div0⟩

/-! ### Every step ends -/

theorem exec_ends (i : Instr) (s : State) : ∃ t, exec i s = .next t := by
  obtain ⟨t, hexec, -⟩ := exec_outcome i s
  exact ⟨t, hexec⟩

/-- A write to `CMD` ends, whatever the word (70_reset_and_hazards.md R177). -/
theorem writeCmd_ends (cmd : Cmd) (s : State) : ∃ t, writeCmd cmd s = .next t := by
  by_cases herr : s.err = .none
  · cases hdecode : decode cmd with
    | error e => exact ⟨_, writeCmd_of_error herr hdecode⟩
    | ok i =>
      rw [writeCmd_of_decode herr hdecode]
      exact exec_ends i s
  · exact ⟨s, writeCmd_of_faulted herr cmd⟩

/-- A port above 8 does not exist (20_memory.md R31), and has no value. -/
theorem State.portValue_of_gt {p : Nat} (hp : 8 < p) (s : State) : s.portValue p = none := by
  obtain ⟨m, rfl⟩ : ∃ m, p = m + 9 := ⟨p - 9, by omega⟩
  rfl

theorem portRead_of_gt {p : Nat} (hp : 8 < p) (s : State) : portRead p s = .refused (.noSuchPort p) := by
  rw [portRead, State.portValue_of_gt hp]

theorem portWrite_of_gt {p : Nat} (hp : 8 < p) (v : Nat) (s : State) :
    portWrite p v s = .refused (.noSuchPort p) := by
  obtain ⟨m, rfl⟩ : ∃ m, p = m + 9 := ⟨p - 9, by omega⟩
  rfl

theorem portRead_ends {p : Nat} (hp : p ≤ 8) (s : State) : ∃ t, portRead p s = .next t := by
  obtain ⟨x, hx⟩ := s.exists_portValue hp
  exact ⟨_, portRead_of_portValue hx⟩

theorem portWrite_ends {p : Nat} (hp : p ≤ 8) (v : Nat) (s : State) : ∃ t, portWrite p v s = .next t := by
  by_cases hro : p = 1 ∨ p = 2 ∨ p = 3 ∨ p = 6 ∨ p = 7 ∨ p = 8
  · exact ⟨s, portWrite_of_readOnly hro v s⟩
  · obtain rfl | rfl | rfl : p = 0 ∨ p = 4 ∨ p = 5 := by omega
    · exact writeCmd_ends _ s
    · exact ⟨_, rfl⟩
    · exact ⟨_, rfl⟩

/-- Settles O12: a port access ends up to port 8 and is refused by name above it; a reset ends. -/
theorem everyCommandEnds : Obligations.EveryCommandEnds := by
  refine ⟨exec_ends, fun _ => step_of_script_nil, fun s => ?_⟩
  rcases hs : s.host.script with _ | ⟨e, rest⟩
  · exact .inl ⟨s, step_of_script_nil hs⟩
  · rw [step_of_script_cons hs]
    cases e with
    | read p =>
      rcases Nat.lt_or_ge 8 p with hp | hp
      · exact .inr ⟨p, rest, hp, portRead_of_gt hp _, .inl rfl⟩
      · exact .inl (portRead_ends hp _)
    | write p v =>
      rcases Nat.lt_or_ge 8 p with hp | hp
      · exact .inr ⟨p, rest, hp, portWrite_of_gt hp v _, .inr ⟨v, rfl⟩⟩
      · exact .inl (portWrite_ends hp v _)
    | reset c => exact .inl ⟨_, rfl⟩

end Sys2Proof.Machine
end
